-- ==== Sys2Proof/Word.lean ====
section
/-! DEFINITION. Word.lean: the bit-vector types the block is built from (R8, R10, R11, R80).

`Word` is the width of every word register, `WMAX` = 64 bits (R8).  A w-word of the selected variant
is a `Word` whose bits 63..w are zero (R11, R35).  Every value is unsigned (R10). -/

namespace Sys2Proof

/-- A 64-bit word register's contents: X, Y, WIN[i] and RK[j] (R8 `WMAX`, R30-R32). -/
abbrev Word := BitVec 64

/-- A byte (R10). -/
abbrev Byte := BitVec 8

/-- A command word `cmd[31:0]` (R80). -/
abbrev CmdWord := BitVec 32

end Sys2Proof
end

