-- ==== Sys2Proof/Syntax.lean ====
section
/-! DEFINITION. Syntax.lean: the ten commands (R80-R87), one constructor per row of spec/opcode_table.json.

A command plays the role an instruction plays in a processor (R14).  Each operand has exactly the
width of its field (R82-R86), so an operand outside its field is not a term of this type; the range
checks of R91 on numbers as a programmer writes them are in WellFormed.lean. -/

namespace Sys2Proof

/-- A command of the block. -/
inductive Instr where
  /-- NOP, format N (R81, R220). -/
  | nop
  /-- SELECT VIDX, format S (R82, R147). -/
  | select (vidx : BitVec 4)
  /-- WKEY IDX, DATA, format W with the five-bit IDX (R83, R124). -/
  | wkey (idx : BitVec 5) (data : Byte)
  /-- WIN IDX, DATA, format W with the four-bit IDX (R83, R125). -/
  | win (idx : BitVec 4) (data : Byte)
  /-- EXPAND LEN, format L (R84, R168). -/
  | expand (len : BitVec 6)
  /-- ENCRYPT LEN, format L (R84, R200). -/
  | encrypt (len : BitVec 6)
  /-- DECRYPT LEN, format L (R84, R203). -/
  | decrypt (len : BitVec 6)
  /-- READ ADDR, format R (R85, R126). -/
  | read (addr : BitVec 8)
  /-- CLRERR, format N (R81, R221). -/
  | clrerr
  /-- SRESET, format N (R81, R222). -/
  | sreset
deriving DecidableEq, Repr

end Sys2Proof
end

