-- ==== Sys2Proof/WellFormed.lean ====
section
/-! DEFINITION. WellFormed.lean: commands as a programmer writes them, with plain numbers, and the range
checks an assembler makes on them (R91, R92).

`Instr` holds each operand in its field's own width, so every term of it is well formed.  The checks
of R91 and R92 are on numbers of any size, so they are stated on `SourceCommand`. -/

namespace Sys2Proof

/-- A line of a command program: the eleven rows of R91's table and the five pseudo-commands of R92. -/
inductive SourceCommand where
  | nop
  | select (vidx : Nat)
  | wkey (idx data : Nat)
  | win (idx data : Nat)
  | expand (len : Nat)
  | encrypt (len : Nat)
  | decrypt (len : Nat)
  | read (addr : Nat)
  | clrerr
  | sreset
  /-- `.word 0xhhhhhhhh`, the literal word (R91). -/
  | word (value : Nat)
  /-- `WKEYS b0, ..., bn-1` (R92). -/
  | wkeys (bytes : List Nat)
  /-- `WINS b0, ..., bn-1` (R92). -/
  | wins (bytes : List Nat)
  /-- `READOUT n` (R92). -/
  | readout (n : Nat)
  /-- `LOADKEY b0, ..., bn-1` (R92). -/
  | loadkey (bytes : List Nat)
  /-- `STATUS` (R92). -/
  | status
deriving DecidableEq, Repr

/-- Every number of the list fits a byte. -/
def allBytes (bytes : List Nat) : Bool := bytes.all fun b => decide (b ≤ 255)

/-- R91: "An assembler refuses an operand out of its field's range: vidx > 15, WKEY idx > 31,
WIN idx > 15, data > 255, len > 63, addr > 255."  The bounds on the byte lists and on READOUT are
R92's (n ≤ 32 for key bytes, n ≤ 16 for block bytes); a literal word has 32 bits.

DESIGN CHOICE (log entry 9): refusing a list or a count above R92's bounds, and a literal of 2^32 or more;
and accepting n = 0, which R92 leaves open: READOUT 0, WKEYS and WINS of no byte stand for no command,
and LOADKEY of no byte for EXPAND 0. -/
def SourceCommand.wellFormed : SourceCommand → Bool
  | .nop => true
  | .select vidx => decide (vidx ≤ 15)
  | .wkey idx data => decide (idx ≤ 31) && decide (data ≤ 255)
  | .win idx data => decide (idx ≤ 15) && decide (data ≤ 255)
  | .expand len => decide (len ≤ 63)
  | .encrypt len => decide (len ≤ 63)
  | .decrypt len => decide (len ≤ 63)
  | .read addr => decide (addr ≤ 255)
  | .clrerr => true
  | .sreset => true
  | .word value => decide (value < 2 ^ 32)
  | .wkeys bytes => decide (bytes.length ≤ 32) && allBytes bytes
  | .wins bytes => decide (bytes.length ≤ 16) && allBytes bytes
  | .readout n => decide (n ≤ 16)
  | .loadkey bytes => decide (bytes.length ≤ 32) && allBytes bytes
  | .status => true

/-- A command written back as a source line. -/
def Instr.toSource : Instr → SourceCommand
  | .nop => .nop
  | .select vidx => .select vidx.toNat
  | .wkey idx data => .wkey idx.toNat data.toNat
  | .win idx data => .win idx.toNat data.toNat
  | .expand len => .expand len.toNat
  | .encrypt len => .encrypt len.toNat
  | .decrypt len => .decrypt len.toNat
  | .read addr => .read addr.toNat
  | .clrerr => .clrerr
  | .sreset => .sreset

/-- A command is well formed when R91's assembler accepts it.  Every command is
(`Sys2Proof.Laws.instr_wellFormed`): the operand types of `Instr` are the field widths themselves. -/
def Instr.wellFormed (i : Instr) : Bool := i.toSource.wellFormed

end Sys2Proof
end

