-- ==== Sys2Proof/Decode.lean ====
section
/-! DEFINITION. Decode.lean: the decoder (R80-R90), total on every 32-bit word, and after it the encoder
(R91).  A command is one parallel 32-bit word with no byte order (R62, R90). -/

namespace Sys2Proof

/-- Why a word is no command (R89). -/
inductive Illegal where
  /-- The opcode field is 0xA..0xF. -/
  | reservedOpcode
  /-- The opcode is that of the named command and a reserved bit is set. -/
  | reservedBits (mnemonic : String)
deriving DecidableEq, Repr

/-- The decoder's answer: "Command | Illegal" (R88). -/
inductive Decoded where
  | command (i : Instr)
  | illegal (why : Illegal)
deriving DecidableEq, Repr

/-- The opcode field `OP`, bits 31:28 (R80). -/
def opField (c : CmdWord) : BitVec 4 := c.extractLsb' 28 4

/-- Bits `27:lo` of the word are all 0: no reserved bit at or above `lo` is set (R80, R89). -/
def reservedClear (lo : Nat) (c : CmdWord) : Bool := c.extractLsb' lo (28 - lo) == 0

/-- One line of R88: the command when the reserved bits from `lo` up are 0, else Illegal. -/
def accepting (lo : Nat) (c : CmdWord) (mnemonic : String) (i : Instr) : Decoded :=
  if reservedClear lo c then .command i else .illegal (.reservedBits mnemonic)

/-- The decoder of R88. -/
def decode (c : CmdWord) : Decoded :=
  match (opField c).toNat with
  | 0x0 => accepting 0 c "NOP" .nop
  | 0x1 => accepting 4 c "SELECT" (.select (c.extractLsb' 0 4))
  | 0x2 => accepting 13 c "WKEY" (.wkey (c.extractLsb' 8 5) (c.extractLsb' 0 8))
  | 0x3 => accepting 12 c "WIN" (.win (c.extractLsb' 8 4) (c.extractLsb' 0 8))
  | 0x4 => accepting 6 c "EXPAND" (.expand (c.extractLsb' 0 6))
  | 0x5 => accepting 6 c "ENCRYPT" (.encrypt (c.extractLsb' 0 6))
  | 0x6 => accepting 6 c "DECRYPT" (.decrypt (c.extractLsb' 0 6))
  | 0x7 => accepting 8 c "READ" (.read (c.extractLsb' 0 8))
  | 0x8 => accepting 0 c "CLRERR" .clrerr
  | 0x9 => accepting 0 c "SRESET" .sreset
  | _ => .illegal .reservedOpcode

/-- The encoder: the words of R91's table. -/
def encode : Instr → CmdWord
  | .nop => 0x00000000#32
  | .select vidx => 0x10000000#32 ||| vidx.setWidth 32
  | .wkey idx data => 0x20000000#32 ||| idx.setWidth 32 <<< 8 ||| data.setWidth 32
  | .win idx data => 0x30000000#32 ||| idx.setWidth 32 <<< 8 ||| data.setWidth 32
  | .expand len => 0x40000000#32 ||| len.setWidth 32
  | .encrypt len => 0x50000000#32 ||| len.setWidth 32
  | .decrypt len => 0x60000000#32 ||| len.setWidth 32
  | .read addr => 0x70000000#32 ||| addr.setWidth 32
  | .clrerr => 0x80000000#32
  | .sreset => 0x90000000#32

/-- A row of R87's opcode map (and of spec/opcode_table.json). -/
structure OpcodeRow where
  mnemonic : String
  /-- The row's "match" column. -/
  pattern : CmdWord
  /-- The row's "mask" column. -/
  mask : CmdWord
deriving DecidableEq, Repr

/-- The mnemonic of a command, as R87 spells it. -/
def Instr.mnemonic : Instr → String
  | .nop => "NOP"
  | .select _ => "SELECT"
  | .wkey _ _ => "WKEY"
  | .win _ _ => "WIN"
  | .expand _ => "EXPAND"
  | .encrypt _ => "ENCRYPT"
  | .decrypt _ => "DECRYPT"
  | .read _ => "READ"
  | .clrerr => "CLRERR"
  | .sreset => "SRESET"

/-- R87's opcode map, as the spec writes it.  The decoder does not use it: `decode` follows R88, and
that the two agree is a claim. -/
def opcodeTable : List OpcodeRow :=
  [⟨"NOP", 0x00000000#32, 0xFFFFFFFF#32⟩,
   ⟨"SELECT", 0x10000000#32, 0xFFFFFFF0#32⟩,
   ⟨"WKEY", 0x20000000#32, 0xFFFFE000#32⟩,
   ⟨"WIN", 0x30000000#32, 0xFFFFF000#32⟩,
   ⟨"EXPAND", 0x40000000#32, 0xFFFFFFC0#32⟩,
   ⟨"ENCRYPT", 0x50000000#32, 0xFFFFFFC0#32⟩,
   ⟨"DECRYPT", 0x60000000#32, 0xFFFFFFC0#32⟩,
   ⟨"READ", 0x70000000#32, 0xFFFFFF00#32⟩,
   ⟨"CLRERR", 0x80000000#32, 0xFFFFFFFF#32⟩,
   ⟨"SRESET", 0x90000000#32, 0xFFFFFFFF#32⟩]

/-- The command word whose low `nbits` bits are those of `w` and whose other bits are 0 (the numbering
of spec/opcode_table.json; every command is one word, R90). -/
def tableWord (nbits w : Nat) : CmdWord := BitVec.ofNat 32 (w % 2 ^ nbits)

/-- The command the decoder reads from the word of a table row; none where it refuses. -/
def decodeTableWord (nbits w : Nat) : Option Instr :=
  match decode (tableWord nbits w) with
  | .command i => some i
  | .illegal _ => none

end Sys2Proof
end

