-- ==== Sys2Proof/Machine/Arith.lean ====
section
/-! DEFINITION. Machine/Arith.lean: the word-arithmetic stages (R100-R108), each for a word width `w`.
No operator has a flag output and none can fail (R101).  An amount above `w` never reaches a rotator
(R108). -/

namespace Sys2Proof.Machine

/-- The word mask `M = (1 << w) - 1` (R100). -/
def maskW (w : Nat) : Word := BitVec.ofNat 64 ((1 <<< w) - 1)

/-- `rol_w(v, r)`, rotate left (R102). -/
def rolW (w : Nat) (v : Word) (r : Nat) : Word :=
  if r = 0 ∨ r = w then v else ((v <<< r) ||| (v >>> (w - r))) &&& maskW w

/-- `ror_w(v, r)`, rotate right (R103). -/
def rorW (w : Nat) (v : Word) (r : Nat) : Word :=
  if r = 0 ∨ r = w then v else ((v >>> r) ||| (v <<< (w - r))) &&& maskW w

/-- `add_w(a, b)`, modular addition; the carry is discarded (R104). -/
def addW (w : Nat) (a b : Word) : Word := (a + b) &&& maskW w

/-- `sub_w(a, b)`, modular subtraction; the borrow is discarded (R105). -/
def subW (w : Nat) (a b : Word) : Word := (a - b) &&& maskW w

/-- `xor_w(a, b)` (R106). -/
def xorW (w : Nat) (a b : Word) : Word := (a ^^^ b) &&& maskW w

/-- `and_w(a, b)` (R107). -/
def andW (w : Nat) (a b : Word) : Word := (a &&& b) &&& maskW w

/-- A w-word: a natural number below `2^w`, so bits 63..w are zero (R11, R35). -/
abbrev IsWord (w : Nat) (v : Word) : Prop := v.toNat < 2 ^ w

end Sys2Proof.Machine
end

