-- ==== Sys2Proof/Config.lean ====
section
/-! DEFINITION. Config.lean: what the block is built with, and the values the spec leaves open.

The ROM contents are a parameter of the model (R9): a model takes any DROM and any ZROM.  They are
held as one record, so that a claim about every state is a claim about every ROM content; no command,
port or reset changes them (R69).  The default contents are in Machine/Roms.lean. -/

namespace Sys2Proof

/-- The two read-only memories (R8 `DROM_ENTRIES`, `ZROM_ENTRIES`; R60; R142; R144). -/
structure Roms where
  /-- Descriptor ROM, 16 words of 34 bits (R142), indexed by VIDX. -/
  drom : Vector (BitVec 34) 16
  /-- Round-constant ROM, 8 words of 62 bits (R144), indexed by ZSEL. -/
  zrom : Vector (BitVec 62) 8
deriving DecidableEq, Repr

namespace Config

/-- FREE VALUE.  What the word register number `slot` (0 = X, 1 = Y, 2..5 = WIN, 6..74 = RK) holds after
the `draw`-th reset: R50 and R222 leave X, Y, WIN and RK unspecified there.  Nothing is known of it
(log entry 2). -/
opaque freeWord : Nat → Nat → Word

/-- OPEN.  The platform's address of the block's port, parameter `SSRP_BASE` (R68, 92_eei_decisions.md
D38).  No rule uses it, and the block decodes only its command port. -/
opaque ssrpBase : Nat

end Config

end Sys2Proof
end

