-- ==== Sys2Proof/Machine/Roms.lean ====
section
/-! DEFINITION. Machine/Roms.lean: the default ROM contents (R141, R142, R144) and the block's identity
bytes (R3). -/

namespace Sys2Proof.Machine

/-- The default DROM words of R142's table, VIDX 0 first: seven Simon descriptors, seven Speck
descriptors, two empty slots. -/
def dromDefault : Vector (BitVec 34) 16 :=
  #v[0x000020841#34, 0x000024661#34, 0x18002C881#34, 0x1000344C1#34,
     0x1800366C1#34, 0x180045701#34, 0x100044501#34, 0x004396843#34,
     0x006416663#34, 0x006417863#34, 0x00641C4C3#34, 0x00641B883#34,
     0x006420503#34, 0x006422903#34, 0x000000000#34, 0x000000000#34]

/-- The default ZROM words of R144's table, slot 0 first; slots 5, 6 and 7 are empty. -/
def zromDefault : Vector (BitVec 62) 8 :=
  #v[0x19C3522FB386A45F#62, 0x16864FB8AD0C9F71#62, 0x3369F885192C0EF5#62, 0x3C2CE51207A635DB#62,
     0x3DC94C3A046D678B#62, 0x0000000000000000#62, 0x0000000000000000#62, 0x0000000000000000#62]

/-- The ROM contents this hardware takes unless it is built with others (R8, R9). -/
def romsDefault : Roms := ⟨dromDefault, zromDefault⟩

/-- `BLOCK_ID` (R3). -/
def blockId : Byte := 0x53#8

/-- `BLOCK_REV` (R3). -/
def blockRev : Byte := 0x01#8

/-- `W_SET`, the legal word widths (R8). -/
def wordWidths : List Nat := [16, 24, 32, 48, 64]

/-- `KW_SET`, the legal key-word counts (R8). -/
def keyWordCounts : List Nat := [2, 3, 4]

/-- `ROUNDS_MIN` (R8). -/
def roundsMin : Nat := 22

/-- `ROUNDS_MAX`, which is also `RK_DEPTH` (R8). -/
def roundsMax : Nat := 69

end Sys2Proof.Machine
end

