-- ==== Sys2Proof/Machine/State.lean ====
section
/-! DEFINITION. Machine/State.lean: all the state of R20, the pins that carry commands in and responses out
(R34), and the state right after reset (R50).

The block has no program counter, no general registers, no flags of arithmetic, no memory, no
interrupts and no modes (R37, R40, R41, R60, R242, R246), so none is here. -/

namespace Sys2Proof.Machine

/-- `CFG_FAMILY`, one bit: 0 = SIMON, 1 = SPECK (R22). -/
inductive Family where
  | simon
  | speck
deriving DecidableEq, Repr

/-- `SEQ`, the sequencer state (R33). -/
inductive Seq where
  /-- No command is in progress. -/
  | idle
  /-- A key-schedule step of EXPAND is next (R170). -/
  | ksStep
  /-- A round of ENCRYPT or DECRYPT is next (R206). -/
  | rfRound
  /-- The result of ENCRYPT or DECRYPT is packed next (R206). -/
  | rfPack
deriving DecidableEq, Repr

/-- `DIR`, one bit: 0 for encrypt, 1 for decrypt (R33). -/
inductive Dir where
  | encrypt
  | decrypt
deriving DecidableEq, Repr

/-- The result codes of R230. -/
inductive ResultCode where
  | ok
  | invalidVariant
  | invalidKeyLength
  | invalidBlockLength
  | unsupportedRotationAmount
  | noSchedule
  | illegalCommand
deriving DecidableEq, Repr

/-- The configuration registers that hold the selected descriptor (R22), written together or not at
all. -/
structure Cfg where
  /-- `CFG_VIDX`. -/
  vidx : BitVec 4
  /-- `CFG_FAMILY`. -/
  family : Family
  /-- `CFG_WBITS`, the word width w (R11). -/
  wbits : BitVec 7
  /-- `CFG_KWORDS`, the key-word count m (R11). -/
  kwords : BitVec 3
  /-- `CFG_ROUNDS`, the round count T (R11). -/
  rounds : BitVec 7
  /-- `CFG_ALPHA`. -/
  alpha : BitVec 6
  /-- `CFG_BETA`. -/
  beta : BitVec 6
  /-- `CFG_Z`. -/
  z : BitVec 62
deriving DecidableEq, Repr

/-- What the host and the platform do at the block's pins (R15, R34).  An event the block has not taken
yet waits in `State.port`. -/
inductive PortEvent where
  /-- The host drives `cmd_valid` = 1 with this word and holds it until it is accepted (R265). -/
  | command (word : CmdWord)
  /-- The platform drives `rst` = 1 at one edge (R260). -/
  | reset
  /-- The host drives `cmd_valid` = 0 at one edge. -/
  | idle
deriving DecidableEq, Repr

/-- The block's state: the items of R20 in its order, then what stands at its pins, and one counter of
the model's own. -/
structure State where
  /-- The two ROMs: configuration, not state of the block (R20, R69).  Held here so that every claim
  is for every ROM content; no step changes it (log entry 1). -/
  roms : Roms
  /-- `CFG_VALID` (R21). -/
  cfgValid : Bool
  /-- `CFG_VIDX` .. `CFG_Z` (R22). -/
  cfg : Cfg
  /-- `KEY_VALID` (R24). -/
  keyValid : Bool
  /-- `ERR` (R26). -/
  err : Bool
  /-- `ERRCODE` (R27). -/
  errcode : Byte
  /-- `KEYBUF[0..31]` (R28). -/
  keybuf : Vector Byte 32
  /-- `INBUF[0..15]` (R29). -/
  inbuf : Vector Byte 16
  /-- `OUTBUF[0..15]` (R29). -/
  outbuf : Vector Byte 16
  /-- `X` (R30). -/
  x : Word
  /-- `Y` (R30). -/
  y : Word
  /-- `WIN[0..3]` (R31). -/
  win : Vector Word 4
  /-- `RK[0..68]` (R32). -/
  rk : Vector Word 69
  /-- `SEQ` (R33). -/
  seq : Seq
  /-- `RC` (R33). -/
  rc : BitVec 7
  /-- `DIR` (R33). -/
  dir : Dir
  /-- `RSP_PENDING` and the word on `rsp` (R33, R34, R46): `some r` is RSP_PENDING = 1 with r driven,
  `none` is RSP_PENDING = 0, when `rsp` carries nothing (log entry 4). -/
  rspPending : Option (BitVec 16)
  /-- What waits at the pins, the first event first: input, not state of the block (R20; log entry 3). -/
  port : List PortEvent
  /-- The model's own: how many resets have drawn free values for X, Y, WIN and RK (log entry 2). -/
  freeDraws : Nat
deriving DecidableEq, Repr

/-- Why a step stops.  The block itself has no fault: every error is a result code (R232, R243). -/
inductive Fault where
  /-- Raised by EXPAND, ENCRYPT and DECRYPT, and by an edge of a command in progress, when the CFG
  registers hold values outside R22's column "legal values after a successful SELECT".  No run from
  reset gets there (`Obligations.StepNeverStops`), and the spec says nothing of such a state.
  Safe: the model stops where the spec gives no behaviour (log entry 5). -/
  | cfgOutsideLegalValues
deriving DecidableEq, Repr

/-- Why the model has no meaning for a command. -/
inductive Refusal where
  /-- Raised by `exec` for a command that has no meaning yet; no command is left in that state.  Safe:
  nothing is proved of a refused command. -/
  | notModelled (mnemonic : String)
deriving DecidableEq, Repr

/-- The CFG registers after reset: all 0 (R50). -/
def Cfg.reset : Cfg where
  vidx := 0
  family := .simon
  wbits := 0
  kwords := 0
  rounds := 0
  alpha := 0
  beta := 0
  z := 0

/-- The state right after reset (R50), with the default ROMs (R8) and nothing waiting at the pins.
R50 leaves X, Y, WIN and RK unspecified; they are 0 here (DESIGN CHOICE, log entry 6). -/
def State.reset : State where
  roms := romsDefault
  cfgValid := false
  cfg := Cfg.reset
  keyValid := false
  err := false
  errcode := 0
  keybuf := Vector.replicate 32 0
  inbuf := Vector.replicate 16 0
  outbuf := Vector.replicate 16 0
  x := 0
  y := 0
  win := Vector.replicate 4 0
  rk := Vector.replicate 69 0
  seq := .idle
  rc := 0
  dir := .encrypt
  rspPending := none
  port := []
  freeDraws := 0

end Sys2Proof.Machine
end

