-- ==== Sys2Proof/Machine/Operands.lean ====
section
/-! DEFINITION. Machine/Operands.lean: the quantities derived from the CFG registers (R11, R23), the
byte-packing multiplexer (R120-R123, R127), and the entries of the indexed storage spaces (R60). -/

namespace Sys2Proof.Machine

/-- `w`, the selected word width (R11). -/
def Cfg.w (c : Cfg) : Nat := c.wbits.toNat

/-- `wb = ceil(w / 8)`, the word byte count (R11, R23, R120). -/
def Cfg.wb (c : Cfg) : Nat := (c.w + 7) / 8

/-- `m`, the selected key-word count (R11). -/
def Cfg.m (c : Cfg) : Nat := c.kwords.toNat

/-- `T`, the selected round count (R11). -/
def Cfg.T (c : Cfg) : Nat := c.rounds.toNat

/-- `FIXC = 0xFFFFFFFFFFFFFFFC & M`, the Simon FixedConstant (R23, R165). -/
def Cfg.fixc (c : Cfg) : Word := 0xFFFFFFFFFFFFFFFC#64 &&& maskW c.w

/-- The CFG registers are within R22's column "legal values after a successful SELECT". -/
abbrev Cfg.Legal (c : Cfg) : Prop :=
  c.w ∈ wordWidths ∧ c.m ∈ keyWordCounts ∧ roundsMin ≤ c.T ∧ c.T ≤ roundsMax ∧
  (c.family = .simon → c.alpha = 0 ∧ c.beta = 0) ∧
  (c.family = .speck → c.alpha.toNat < c.w ∧ c.beta.toNat < c.w ∧ c.z = 0)

/-- Byte `i` of a byte buffer, `BUF[i]` (R12).  Every index a rule forms is in range (R60); outside it
nothing is read. -/
def byteAt {n : Nat} (buf : Vector Byte n) (i : Nat) : Byte :=
  if h : i < n then buf[i] else 0

/-- Byte write `BUF[i] <- b` (R12). -/
def setByte {n : Nat} (buf : Vector Byte n) (i : Nat) (b : Byte) : Vector Byte n :=
  buf.setIfInBounds i b

/-- Word `j` of the round-key store or of the window, `RK[j]`, `WIN[j]` (R12, R31, R32). -/
def wordAt {n : Nat} (store : Vector Word n) (j : Nat) : Word :=
  if h : j < n then store[j] else 0

/-- Word write `RK[j] <- v` (R12). -/
def setWord {n : Nat} (store : Vector Word n) (j : Nat) (v : Word) : Vector Word n :=
  store.setIfInBounds j v

/-- `sum over b in 0..n-1 of BUF[base + b] << (8*b)`, as a natural number (R121). -/
def bytesValue {n : Nat} (buf : Vector Byte n) (base : Nat) : Nat → Nat
  | 0 => 0
  | k + 1 => bytesValue buf base k + (byteAt buf (base + k)).toNat <<< (8 * k)

/-- `unpack(B, j)`, word `j` of a byte buffer, least-significant byte first, masked to w bits (R121). -/
def unpack {n : Nat} (c : Cfg) (buf : Vector Byte n) (j : Nat) : Word :=
  BitVec.ofNat 64 (bytesValue buf (j * c.wb) c.wb) &&& maskW c.w

/-- Byte `b` of a word, `(v >> (8*b)) & 0xFF` (R61, R122). -/
def byteOf (v : Word) (b : Nat) : Byte := (v >>> (8 * b)).setWidth 8

/-- The first `k` writes of R122: bytes `0..k-1` of `v` at `base`, `base + 1`, .... -/
def packBytes {n : Nat} (buf : Vector Byte n) (base : Nat) (v : Word) : Nat → Vector Byte n
  | 0 => buf
  | k + 1 => setByte (packBytes buf base v k) (base + k) (byteOf v k)

/-- `pack(B, j, v)`: write w-word `v` as word `j` of a byte buffer (R122). -/
def pack {n : Nat} (c : Cfg) (buf : Vector Byte n) (j : Nat) (v : Word) : Vector Byte n :=
  packBytes buf (j * c.wb) v c.wb

/-- `for b in from..n-1: B[b] <- 0x00` (R205). -/
def clearFrom {n : Nat} (buf : Vector Byte n) (start : Nat) : Vector Byte n :=
  Vector.ofFn fun b => if start ≤ b.val then 0 else buf[b]

end Sys2Proof.Machine
end

