-- ==== Sys2Proof/Machine/Flags.lean ====
section
/-! DEFINITION. Machine/Flags.lean: the result codes' bytes (R230), the STATUS view (R25), the error registers
(R26, R27, R233) and the read window (R65).  The block has no arithmetic flags (R41). -/

namespace Sys2Proof.Machine

/-- The 8-bit code of R230's table. -/
def ResultCode.toByte : ResultCode → Byte
  | .ok => 0x00#8
  | .invalidVariant => 0x01#8
  | .invalidKeyLength => 0x02#8
  | .invalidBlockLength => 0x03#8
  | .unsupportedRotationAmount => 0x04#8
  | .noSchedule => 0x05#8
  | .illegalCommand => 0x06#8

/-- CFG_FAMILY as its bit: 0 = SIMON, 1 = SPECK (R22). -/
def Family.bit : Family → BitVec 1
  | .simon => 0#1
  | .speck => 1#1

/-- The family a descriptor's FAMILY bit names (R142). -/
def Family.ofBit (b : BitVec 1) : Family := if b = 1#1 then .speck else .simon

/-- `STATUS`, the view `{5'b0, ERR, KEY_VALID, CFG_VALID}` (R25). -/
def statusByte (s : State) : Byte :=
  0#5 ++ BitVec.ofBool s.err ++ BitVec.ofBool s.keyValid ++ BitVec.ofBool s.cfgValid

/-- Error recording: `ERR <- 1; ERRCODE <- c` (R233). -/
def recordError (code : ResultCode) (s : State) : State :=
  { s with err := true, errcode := code.toByte }

/-- `window(ADDR)`, the read window of R65.  Addresses not listed read as 0x00. -/
def readWindow (s : State) (addr : BitVec 8) : Byte :=
  if addr.toNat < 0x10 then byteAt s.outbuf addr.toNat
  else match addr.toNat with
    | 0x10 => statusByte s
    | 0x11 => s.errcode
    | 0x12 => s.cfg.vidx.setWidth 8
    | 0x13 => s.cfg.family.bit.setWidth 8
    | 0x14 => s.cfg.wbits.setWidth 8
    | 0x15 => s.cfg.kwords.setWidth 8
    | 0x16 => s.cfg.rounds.setWidth 8
    | 0x17 => s.cfg.alpha.setWidth 8
    | 0x18 => s.cfg.beta.setWidth 8
    | 0x19 => if s.cfgValid then BitVec.ofNat 8 s.cfg.wb else 0
    | 0x1A => blockId
    | 0x1B => blockRev
    | _ => 0

end Sys2Proof.Machine
end

