-- ==== Sys2Proof/Machine/Ops.lean ====
section
/-! DEFINITION. Machine/Ops.lean: the operations every command is made of: completing with a response
(R46, R268), the block's one way of failing (R231), the reset of all state (R50, R260), and the two
counted loops of the rules' pseudocode.

The block takes no exception in a processor's sense: no error transfers control or changes a mode
(R243).  `raise` is what stands in its place, and there is no return from it (R244). -/

namespace Sys2Proof.Machine

/-- What a command answers. -/
abbrev Result := Host.Outcome State Fault Refusal

/-- The response word `{code[7:0], data[7:0]}` (R46). -/
def responseWord (code : ResultCode) (data : Byte) : BitVec 16 := code.toByte ++ data

/-- The completing edge: `SEQ <- IDLE`, `RSP_PENDING <- 1`, and the response is driven (R46, R268). -/
def complete (code : ResultCode) (data : Byte) (s : State) : State :=
  { s with rspPending := some (responseWord code data), seq := .idle }

/-- `respond(OK, data)` of a command that succeeds (R12, R46). -/
def respondOk (data : Byte) (s : State) : Result := .next (complete .ok data s)

/-- What a failing command leaves: nothing changes but ERR and ERRCODE, and the response is `{code, 0x00}`
(R231, R233). -/
def failed (code : ResultCode) (s : State) : State := complete code 0 (recordError code s)

/-- `raise code` (R12, R231). -/
def raise (code : ResultCode) (s : State) : Result := .next (failed code s)

/-- Reset: every state element takes the value of R50.  X, Y, WIN and RK become unspecified: each takes a
free value, a fresh one at every reset (log entry 2).  The ROMs stay (R69) and so does what waits at
the pins. -/
def resetAll (s : State) : State :=
  { roms := s.roms
    cfgValid := false
    cfg := Cfg.reset
    keyValid := false
    err := false
    errcode := 0
    keybuf := Vector.replicate 32 0
    inbuf := Vector.replicate 16 0
    outbuf := Vector.replicate 16 0
    x := Config.freeWord s.freeDraws 0
    y := Config.freeWord s.freeDraws 1
    win := Vector.ofFn fun i => Config.freeWord s.freeDraws (2 + i.val)
    rk := Vector.ofFn fun j => Config.freeWord s.freeDraws (6 + j.val)
    seq := .idle
    rc := 0
    dir := .encrypt
    rspPending := none
    port := s.port
    freeDraws := s.freeDraws + 1 }

/-- Run `k` on a state whose CFG registers are within R22's legal values; stop by name on any other
(log entry 5). -/
def whenLegal (s : State) (k : State → State) : Result :=
  if s.cfg.Legal then .next (k s) else .fault .cfgOutsideLegalValues

/-- `for i in 0..n-1: a <- f(i, a)`. -/
def forUp {α : Type} (f : Nat → α → α) : Nat → α → α
  | 0, a => a
  | n + 1, a => f n (forUp f n a)

/-- `for i in n-1 down to 0: a <- f(i, a)`. -/
def forDown {α : Type} (f : Nat → α → α) : Nat → α → α
  | 0, a => a
  | n + 1, a => forDown f n (f n a)

end Sys2Proof.Machine
end

