-- ==== Sys2Proof/Machine/Buffer.lean ====
section
/-! DEFINITION. Machine/Buffer.lean: the buffer commands WKEY, WIN and READ (R124-R126). -/

namespace Sys2Proof.Machine

/-- WKEY: `KEYBUF[IDX] <- DATA; respond(OK, 0x00)` (R124). -/
def execWkey (idx : BitVec 5) (data : Byte) (s : State) : Result :=
  respondOk 0 { s with keybuf := setByte s.keybuf idx.toNat data }

/-- WIN: `INBUF[IDX] <- DATA; respond(OK, 0x00)` (R125). -/
def execWin (idx : BitVec 4) (data : Byte) (s : State) : Result :=
  respondOk 0 { s with inbuf := setByte s.inbuf idx.toNat data }

/-- READ: `respond(OK, window(ADDR))`; no state changes (R126). -/
def execRead (addr : BitVec 8) (s : State) : Result := respondOk (readWindow s addr) s

end Sys2Proof.Machine
end

