-- ==== Sys2Proof/Machine/Control.lean ====
section
/-! DEFINITION. Machine/Control.lean: NOP, CLRERR and SRESET (R220-R222), and what the block does with a word
that is no command (R238). -/

namespace Sys2Proof.Machine

/-- NOP: `respond(OK, 0x00)`; no state changes (R220). -/
def execNop (s : State) : Result := respondOk 0 s

/-- CLRERR: `ERR <- 0; ERRCODE <- 0x00; respond(OK, 0x00)` (R221). -/
def execClrerr (s : State) : Result := respondOk 0 { s with err := false, errcode := 0 }

/-- SRESET: every state element takes its reset value, then `respond(OK, 0x00)`, whose RSP_PENDING the reset
does not clear (R222). -/
def execSreset (s : State) : Result := respondOk 0 (resetAll s)

/-- An illegal word is accepted, and fails with ILLEGAL_COMMAND (R89, R238). -/
def execIllegal (s : State) : Result := raise .illegalCommand s

end Sys2Proof.Machine
end

