-- ==== Sys2Proof/Machine/KeySchedule.lean ====
section
/-! DEFINITION. Machine/KeySchedule.lean: the key-schedule steps (R161-R167) and EXPAND (R168). -/

namespace Sys2Proof.Machine

/-- What a schedule works on: the window WIN and the round-key store RK. -/
structure Schedule where
  win : Vector Word 4
  rk : Vector Word 69
deriving DecidableEq, Repr

/-- Window load: `WIN[j] <- unpack(KEYBUF, j)` for `j` below m; the slots at and above m are not loaded
(R161). -/
def loadWindow (c : Cfg) (keybuf : Vector Byte 32) (win : Vector Word 4) : Vector Word 4 :=
  Vector.ofFn fun j => if j.val < c.m then unpack c keybuf j.val else win[j]

/-- The step index as a word: RC, 7 bits, zero-extended (R112). -/
def zextStep (i : Nat) : Word := (BitVec.ofNat 7 i).setWidth 64

/-- Speck key step `i` (R163).  Every right-hand side reads the window as it was before the step:
`WIN[0] <- y`, `WIN[j] <- WIN[j+1]` for `j` in 1..m-2, `WIN[m-1] <- x`. -/
def speckStep (c : Cfg) (i : Nat) (win : Vector Word 4) : Vector Word 4 :=
  let x := xorW c.w (addW c.w (rorW c.w (wordAt win 1) c.alpha.toNat) (wordAt win 0)) (zextStep i)
  let y := xorW c.w (rolW c.w (wordAt win 0) c.beta.toNat) x
  Vector.ofFn fun j =>
    if j.val = 0 then y
    else if j.val + 1 < c.m then wordAt win (j.val + 1)
    else if j.val + 1 = c.m then x
    else win[j]

/-- The Simon round constant of step `i`: `FIXC ^ zext_w(CFG_Z[i mod 62])` (R165). -/
def simonConst (c : Cfg) (i : Nat) : Word :=
  c.fixc ^^^ (BitVec.ofBool (c.z.getLsbD (i % 62))).setWidth 64

/-- The new word of Simon key step `i` (R164), from the window as it was before the step. -/
def simonNewWord (c : Cfg) (i : Nat) (win : Vector Word 4) : Word :=
  let x := rorW c.w (wordAt win (c.m - 1)) 3
  let x := if c.m = 4 then xorW c.w x (wordAt win 1) else x
  let y := rorW c.w x 1
  let x := xorW c.w x (wordAt win 0)
  let x := xorW c.w x y
  xorW c.w x (simonConst c i)

/-- Simon key step `i` (R164): the window shifts left by one and the new word enters at `WIN[m-1]`. -/
def simonStep (c : Cfg) (i : Nat) (win : Vector Word 4) : Vector Word 4 :=
  let x := simonNewWord c i win
  Vector.ofFn fun j =>
    if j.val + 1 < c.m then wordAt win (j.val + 1)
    else if j.val + 1 = c.m then x
    else win[j]

/-- Key step `i` of the selected family with its round-key write (R166): SPECK `RK[i+1] <- WIN[0]`, SIMON
`RK[m+i] <- WIN[m-1]`, both of the new window. -/
def scheduleStep (c : Cfg) (i : Nat) (k : Schedule) : Schedule :=
  match c.family with
  | .speck =>
    let win := speckStep c i k.win
    { win := win, rk := setWord k.rk (i + 1) (wordAt win 0) }
  | .simon =>
    let win := simonStep c i k.win
    { win := win, rk := setWord k.rk (c.m + i) (wordAt win (c.m - 1)) }

/-- The round keys written before the first step: SPECK `RK[0] <- WIN[0]`, SIMON `RK[j] <- WIN[j]` for `j`
in 0..m-1 (R162, R166). -/
def firstRoundKeys (c : Cfg) (win : Vector Word 4) (rk : Vector Word 69) : Vector Word 69 :=
  match c.family with
  | .speck => setWord rk 0 (wordAt win 0)
  | .simon => forUp (fun j rk => setWord rk j (wordAt win j)) c.m rk

/-- Window and round keys before the first step (R161, R166). -/
def scheduleStart (c : Cfg) (keybuf : Vector Byte 32) (k : Schedule) : Schedule :=
  let win := loadWindow c keybuf k.win
  { win := win, rk := firstRoundKeys c win k.rk }

/-- The number of key steps: SPECK `S = T - 1`, SIMON `S = T - m` (R167). -/
def scheduleSteps (c : Cfg) : Nat :=
  match c.family with
  | .speck => c.T - 1
  | .simon => c.T - c.m

/-- The whole schedule: the start, then steps 0..S-1 (R168). -/
def runSchedule (c : Cfg) (keybuf : Vector Byte 32) (k : Schedule) : Schedule :=
  forUp (scheduleStep c) (scheduleSteps c) (scheduleStart c keybuf k)

/-- EXPAND's checks, in R168's and R237's order. -/
def checkExpand (len : BitVec 6) (s : State) : ResultCode :=
  if s.cfgValid = false then .invalidVariant
  else if len.toNat ≠ s.cfg.m * s.cfg.wb then .invalidKeyLength
  else .ok

/-- What a successful EXPAND leaves: the window and the round keys of the schedule, RC at S, KEY_VALID set,
KEYBUF cleared, and the response (R168, R170). -/
def expandDone (k : Schedule) (steps : Nat) (s : State) : State :=
  complete .ok 0
    { s with
      win := k.win
      rk := k.rk
      rc := BitVec.ofNat 7 steps
      keyValid := true
      keybuf := Vector.replicate 32 0 }

/-- EXPAND (R168). -/
def execExpand (len : BitVec 6) (s : State) : Result :=
  match checkExpand len s with
  | .ok =>
    whenLegal s fun s =>
      expandDone (runSchedule s.cfg s.keybuf ⟨s.win, s.rk⟩) (scheduleSteps s.cfg) s
  | code => raise code s

end Sys2Proof.Machine
end

