-- ==== Sys2Proof/Machine/Rounds.lean ====
section
/-! DEFINITION. Machine/Rounds.lean: the round stage's four functions (R180-R184) and their selection
(R187). -/

namespace Sys2Proof.Machine

/-- The block halves, held in X and Y during a command (R30). -/
structure Halves where
  x : Word
  y : Word
deriving DecidableEq, Repr

/-- `speck_round(x, y, k)`: the `y` line reads the new `x` (R180). -/
def speckRound (w alpha beta : Nat) (k : Word) (h : Halves) : Halves :=
  let x := xorW w (addW w (rorW w h.x alpha) h.y) k
  let y := xorW w (rolW w h.y beta) x
  ⟨x, y⟩

/-- `speck_inv(x, y, k)`: the `x` line reads the new `y` (R181).  It is the inverse of `speckRound` on w-words
(R186). -/
def speckInv (w alpha beta : Nat) (k : Word) (h : Halves) : Halves :=
  let y := rorW w (xorW w h.y h.x) beta
  let x := rolW w (subW w (xorW w h.x k) y) alpha
  ⟨x, y⟩

/-- The Simon mixing function `f(v)` (R182). -/
def simonF (w : Nat) (v : Word) : Word :=
  xorW w (andW w (rolW w v 1) (rolW w v 8)) (rolW w v 2)

/-- `simon_round(x, y, k)`: both outputs read the old halves (R183). -/
def simonRound (w : Nat) (k : Word) (h : Halves) : Halves :=
  let t := xorW w (xorW w (andW w (rolW w h.x 1) (rolW w h.x 8)) h.y) (rolW w h.x 2)
  ⟨xorW w t k, h.x⟩

/-- `simon_inv(x, y, k)` (R184).  It is the inverse of `simonRound` on w-words (R186). -/
def simonInv (w : Nat) (k : Word) (h : Halves) : Halves :=
  ⟨h.y, xorW w (xorW w h.x k) (simonF w h.y)⟩

/-- The forward round of the selected family (R187, DIR = 0). -/
def roundForward (c : Cfg) (k : Word) (h : Halves) : Halves :=
  match c.family with
  | .speck => speckRound c.w c.alpha.toNat c.beta.toNat k h
  | .simon => simonRound c.w k h

/-- The inverse round of the selected family (R187, DIR = 1). -/
def roundInverse (c : Cfg) (k : Word) (h : Halves) : Halves :=
  match c.family with
  | .speck => speckInv c.w c.alpha.toNat c.beta.toNat k h
  | .simon => simonInv c.w k h

end Sys2Proof.Machine
end

