-- ==== Sys2Proof/Machine/Pipeline.lean ====
section
/-! DEFINITION. Machine/Pipeline.lean: unpack, rounds, pack (R201-R205), and ENCRYPT and DECRYPT (R200, R203). -/

namespace Sys2Proof.Machine

/-- Load the halves: `Y <- unpack(INBUF, 0)`, `X <- unpack(INBUF, 1)` (R201). -/
def loadHalves (c : Cfg) (inbuf : Vector Byte 16) : Halves :=
  ⟨unpack c inbuf 1, unpack c inbuf 0⟩

/-- The T rounds: forward with RK[0], RK[1], ... (R202), inverse with RK[T-1], ..., RK[0] (R204). -/
def runRounds (c : Cfg) (rk : Vector Word 69) (dir : Dir) (h : Halves) : Halves :=
  match dir with
  | .encrypt => forUp (fun j h => roundForward c (wordAt rk j) h) c.T h
  | .decrypt => forDown (fun j h => roundInverse c (wordAt rk j) h) c.T h

/-- Write the result: Y as word 0, X as word 1, zeros in the bytes from `2*wb` up (R205). -/
def packHalves (c : Cfg) (h : Halves) (outbuf : Vector Byte 16) : Vector Byte 16 :=
  clearFrom (pack c (pack c outbuf 0 h.y) 1 h.x) (2 * c.wb)

/-- The checks of ENCRYPT and DECRYPT, in R200's and R237's order. -/
def checkCipher (len : BitVec 6) (s : State) : ResultCode :=
  if s.cfgValid = false then .invalidVariant
  else if len.toNat ≠ 2 * s.cfg.wb then .invalidBlockLength
  else if s.keyValid = false then .noSchedule
  else .ok

/-- What a successful ENCRYPT or DECRYPT leaves: the final halves in X and Y, DIR, RC at T, the result in
OUTBUF, and the response (R200, R203, R206). -/
def cipherDone (dir : Dir) (h : Halves) (s : State) : State :=
  complete .ok 0
    { s with
      x := h.x
      y := h.y
      dir := dir
      rc := BitVec.ofNat 7 s.cfg.T
      outbuf := packHalves s.cfg h s.outbuf }

/-- ENCRYPT and DECRYPT have one shape (R200, R203). -/
def runCipher (dir : Dir) (len : BitVec 6) (s : State) : Result :=
  match checkCipher len s with
  | .ok =>
    whenLegal s fun s =>
      cipherDone dir (runRounds s.cfg s.rk dir (loadHalves s.cfg s.inbuf)) s
  | code => raise code s

/-- ENCRYPT (R200). -/
def execEncrypt (len : BitVec 6) (s : State) : Result := runCipher .encrypt len s

/-- DECRYPT (R203). -/
def execDecrypt (len : BitVec 6) (s : State) : Result := runCipher .decrypt len s

end Sys2Proof.Machine
end

