-- ==== Sys2Proof/Machine/Select.lean ====
section
/-! DEFINITION. Machine/Select.lean: the descriptor ROM word (R142), the SELECT checks (R146) and SELECT (R147). -/

namespace Sys2Proof.Machine

/-- The fields of a DROM word (R142). -/
structure Descriptor where
  present : Bool
  family : Family
  wbits : BitVec 7
  kwords : BitVec 3
  rounds : BitVec 7
  alpha : BitVec 6
  beta : BitVec 6
  zsel : BitVec 3
deriving DecidableEq, Repr

/-- The fields of a DROM word, at R142's bit positions. -/
def descriptorOfWord (d : BitVec 34) : Descriptor where
  present := d.getLsbD 0
  family := Family.ofBit (d.extractLsb' 1 1)
  wbits := d.extractLsb' 2 7
  kwords := d.extractLsb' 9 3
  rounds := d.extractLsb' 12 7
  alpha := d.extractLsb' 19 6
  beta := d.extractLsb' 25 6
  zsel := d.extractLsb' 31 3

/-- The SELECT checks, in R146's order: the first that fails sets the code. -/
def checkDescriptor (d : Descriptor) : ResultCode :=
  if d.present = false then .invalidVariant
  else if d.wbits.toNat ∉ wordWidths then .invalidVariant
  else if d.kwords.toNat ∉ keyWordCounts then .invalidVariant
  else if d.rounds.toNat < roundsMin ∨ d.rounds.toNat > roundsMax then .invalidVariant
  else if d.family = .simon ∧ d.zsel.toNat > 4 then .invalidVariant
  else if d.family = .speck ∧
      (d.alpha.toNat ≥ d.wbits.toNat ∨ d.beta.toNat ≥ d.wbits.toNat) then
    .unsupportedRotationAmount
  else .ok

/-- The CFG registers a successful SELECT writes (R147). -/
def cfgOfDescriptor (roms : Roms) (vidx : BitVec 4) (d : Descriptor) : Cfg where
  vidx := vidx
  family := d.family
  wbits := d.wbits
  kwords := d.kwords
  rounds := d.rounds
  alpha := if d.family = .speck then d.alpha else 0
  beta := if d.family = .speck then d.beta else 0
  z := if d.family = .simon then roms.zrom[d.zsel.toNat] else 0

/-- The descriptor at a VIDX, `DROM[VIDX]` (R147). -/
def romDescriptor (roms : Roms) (vidx : BitVec 4) : Descriptor :=
  descriptorOfWord roms.drom[vidx.toNat]

/-- SELECT (R147). -/
def execSelect (vidx : BitVec 4) (s : State) : Result :=
  match checkDescriptor (romDescriptor s.roms vidx) with
  | .ok =>
    respondOk 0
      { s with
        cfg := cfgOfDescriptor s.roms vidx (romDescriptor s.roms vidx)
        cfgValid := true
        keyValid := false }
  | code => raise code s

end Sys2Proof.Machine
end

