-- ==== Sys2Proof/Machine/Dispatch.lean ====
section
/-! DEFINITION. Machine/Dispatch.lean: one arm per command, each one call of its meaning. -/

namespace Sys2Proof.Machine

def exec (i : Instr) (s : State) : Host.Outcome State Fault Refusal :=
  match i with
  | .nop => Sys2Proof.Machine.execNop s
  | .select vidx => Sys2Proof.Machine.execSelect vidx s
  | .wkey idx data => Sys2Proof.Machine.execWkey idx data s
  | .win idx data => Sys2Proof.Machine.execWin idx data s
  | .expand len => Sys2Proof.Machine.execExpand len s
  | .encrypt len => Sys2Proof.Machine.execEncrypt len s
  | .decrypt len => Sys2Proof.Machine.execDecrypt len s
  | .read addr => Sys2Proof.Machine.execRead addr s
  | .clrerr => Sys2Proof.Machine.execClrerr s
  | .sreset => Sys2Proof.Machine.execSreset s

end Sys2Proof.Machine
end

