-- ==== Sys2Proof/Machine/Sequencer.lean ====
section
/-! DEFINITION. Machine/Sequencer.lean: the commands cycle by cycle (R170, R206, R268).  `exec` runs a whole
command as one transaction, as R16 lets a model do; here is what each rising edge of it does. -/

namespace Sys2Proof.Machine

/-- EXPAND's accepting edge when its checks pass: load WIN, write the first round keys, `RC <- 0`,
`SEQ <- KS_STEP` (R170). -/
def startExpand (s : State) : State :=
  let k := scheduleStart s.cfg s.keybuf ⟨s.win, s.rk⟩
  { s with win := k.win, rk := k.rk, rc := 0, seq := .ksStep, rspPending := none }

/-- An edge with SEQ = KS_STEP and RC = i: step i and its round-key write, `RC <- RC + 1`; at i = S-1 the
command completes (R170). -/
def ksStepEdge (s : State) : State :=
  let k := scheduleStep s.cfg s.rc.toNat ⟨s.win, s.rk⟩
  if s.rc.toNat + 1 = scheduleSteps s.cfg then expandDone k (s.rc.toNat + 1) s
  else { s with win := k.win, rk := k.rk, rc := s.rc + 1, rspPending := none }

/-- The accepting edge of ENCRYPT or DECRYPT when its checks pass: DIR, load Y and X, `RC <- 0`,
`SEQ <- RF_ROUND` (R206). -/
def startCipher (dir : Dir) (s : State) : State :=
  let h := loadHalves s.cfg s.inbuf
  { s with x := h.x, y := h.y, dir := dir, rc := 0, seq := .rfRound, rspPending := none }

/-- One round by the round datapath, with RK[j] when DIR = 0 and RK[T-1-j] when DIR = 1 (R187, R206). -/
def roundAt (c : Cfg) (rk : Vector Word 69) (dir : Dir) (j : Nat) (h : Halves) : Halves :=
  match dir with
  | .encrypt => roundForward c (wordAt rk j) h
  | .decrypt => roundInverse c (wordAt rk (c.T - 1 - j)) h

/-- An edge with SEQ = RF_ROUND and RC = j: one round, `RC <- RC + 1`; at j = T-1 also
`SEQ <- RF_PACK` (R206). -/
def rfRoundEdge (s : State) : State :=
  let h := roundAt s.cfg s.rk s.dir s.rc.toNat ⟨s.x, s.y⟩
  { s with
    x := h.x
    y := h.y
    rc := s.rc + 1
    seq := if s.rc.toNat + 1 = s.cfg.T then .rfPack else .rfRound
    rspPending := none }

/-- The edge with SEQ = RF_PACK: write OUTBUF and complete (R206). -/
def rfPackEdge (s : State) : State :=
  complete .ok 0 { s with outbuf := packHalves s.cfg ⟨s.x, s.y⟩ s.outbuf }

/-- An edge at which no command is accepted and `rst` is 0.  In IDLE all state holds but RSP_PENDING, which
falls (R251, R268). -/
def seqEdge (s : State) : Result :=
  match s.seq with
  | .idle => .next { s with rspPending := none }
  | .ksStep => whenLegal s ksStepEdge
  | .rfRound => whenLegal s rfRoundEdge
  | .rfPack => whenLegal s rfPackEdge

/-- The accepting edge of a command (R170, R206, R268).  A command of one cycle has its whole effect at
it. -/
def acceptEdge (i : Instr) (s : State) : Result :=
  match i with
  | .nop => exec .nop s
  | .select vidx => exec (.select vidx) s
  | .wkey idx data => exec (.wkey idx data) s
  | .win idx data => exec (.win idx data) s
  | .expand len =>
    match checkExpand len s with
    | .ok => whenLegal s startExpand
    | code => raise code s
  | .encrypt len =>
    match checkCipher len s with
    | .ok => whenLegal s (startCipher .encrypt)
    | code => raise code s
  | .decrypt len =>
    match checkCipher len s with
    | .ok => whenLegal s (startCipher .decrypt)
    | code => raise code s
  | .read addr => exec (.read addr) s
  | .clrerr => exec .clrerr s
  | .sreset => exec .sreset s

end Sys2Proof.Machine
end

