-- ==== Sys2Proof/Machine/Port.lean ====
section
/-! DEFINITION. Machine/Port.lean: the command port at the level of transactions (R16, R44, R71, R265): what
one step does with the first event that waits at the pins. -/

namespace Sys2Proof.Machine

/-- The whole transaction of an accepted command word: the decoded command's meaning, or ILLEGAL_COMMAND
for a word that is no command (R88, R238). -/
def runWord (c : CmdWord) (s : State) : Result :=
  match decode c with
  | .command i => exec i s
  | .illegal _ => execIllegal s

/-- One step of the block.  `rst` wins over everything (R252).  A presented word is accepted when SEQ = IDLE
(R34) and then runs as one transaction (R16); while a command is in progress the word keeps waiting and
the sequencer advances one edge (R265).  Where the host presents nothing, one edge passes. -/
def stepPort (s : State) : Result :=
  match s.port with
  | .reset :: rest => .next (resetAll { s with port := rest })
  | .command c :: rest =>
    if s.seq = .idle then runWord c { s with port := rest } else seqEdge s
  | .idle :: rest => seqEdge { s with port := rest }
  | [] => seqEdge s

/-- The state with `c` presented as the next word to be accepted: first at the pins, and no command in
progress, since a word is accepted only when SEQ = IDLE (R44). -/
def presentWord (c : CmdWord) (s : State) : State :=
  { s with port := .command c :: s.port, seq := .idle }

end Sys2Proof.Machine
end

