-- ==== Sys2Proof/Machine/Step.lean ====
section
/-! DEFINITION. Machine/Step.lean: the step of the machine, and how a test presents a command to it. -/

namespace Sys2Proof.Machine

/-- One step: the block takes the next event at its pins (R16, R71). -/
def step (s : State) : Host.Outcome State Fault Refusal := stepPort s

/-- `s` with the table word `w` of `nbits` bits presented as the word the next step accepts. -/
def State.withFetchWord (s : State) (nbits w : Nat) : State := presentWord (tableWord nbits w) s

end Sys2Proof.Machine
end

