-- ==== Sys2Proof/Machine/Assembler.lean ====
section
/-! DEFINITION. Machine/Assembler.lean: the host's assembler (R91, R92): from a source line to command words.
It is no part of the block; a program it makes reaches the block as words on the command port. -/

namespace Sys2Proof

/-- The pseudo-commands' expansions (R92); a real command stands for itself.  With n = 0, of which R92 says
nothing, WKEYS, WINS and READOUT expand to no command and LOADKEY to EXPAND 0 (DESIGN CHOICE, log entry
9). -/
def SourceCommand.lines : SourceCommand → List SourceCommand
  | .wkeys bytes => bytes.zipIdx.map fun b => .wkey b.2 b.1
  | .wins bytes => bytes.zipIdx.map fun b => .win b.2 b.1
  | .readout n => (List.range n).map .read
  | .loadkey bytes => (bytes.zipIdx.map fun b => .wkey b.2 b.1) ++ [.expand bytes.length]
  | .status => [.read 0x10]
  | .nop => [.nop]
  | .select vidx => [.select vidx]
  | .wkey idx data => [.wkey idx data]
  | .win idx data => [.win idx data]
  | .expand len => [.expand len]
  | .encrypt len => [.encrypt len]
  | .decrypt len => [.decrypt len]
  | .read addr => [.read addr]
  | .clrerr => [.clrerr]
  | .sreset => [.sreset]
  | .word value => [.word value]

/-- The word of one real command or literal word, by R91's column "encoding", on plain numbers; a
pseudo-command has no encoding of its own (R92). -/
def SourceCommand.value : SourceCommand → Option Nat
  | .nop => some 0x00000000
  | .select vidx => some (0x10000000 ||| vidx)
  | .wkey idx data => some (0x20000000 ||| idx <<< 8 ||| data)
  | .win idx data => some (0x30000000 ||| idx <<< 8 ||| data)
  | .expand len => some (0x40000000 ||| len)
  | .encrypt len => some (0x50000000 ||| len)
  | .decrypt len => some (0x60000000 ||| len)
  | .read addr => some (0x70000000 ||| addr)
  | .clrerr => some 0x80000000
  | .sreset => some 0x90000000
  | .word value => some value
  | .wkeys _ => none
  | .wins _ => none
  | .readout _ => none
  | .loadkey _ => none
  | .status => none

/-- Assemble one source line: none where R91's range checks refuse it. -/
def assemble (line : SourceCommand) : Option (List CmdWord) :=
  if line.wellFormed then
    line.lines.mapM fun l => l.value.map (BitVec.ofNat 32)
  else none

/-- The value of a digit, `0-9`, `a-f` or `A-F`. -/
def digitValue (ch : Char) : Option Nat :=
  if '0' ≤ ch ∧ ch ≤ '9' then some (ch.toNat - '0'.toNat)
  else if 'a' ≤ ch ∧ ch ≤ 'f' then some (ch.toNat - 'a'.toNat + 10)
  else if 'A' ≤ ch ∧ ch ≤ 'F' then some (ch.toNat - 'A'.toNat + 10)
  else none

/-- Digits of a base, most significant first, onto the value read so far. -/
def digitsValue (base : Nat) : Nat → List Char → Option Nat
  | acc, [] => some acc
  | acc, ch :: rest =>
    match digitValue ch with
    | some d => if d < base then digitsValue base (acc * base + d) rest else none
    | none => none

/-- A number: decimal, or hexadecimal with `0x` (R91). -/
def parseNumber : List Char → Option Nat
  | '0' :: 'x' :: ch :: rest => digitsValue 16 0 (ch :: rest)
  | ch :: rest => digitsValue 10 0 (ch :: rest)
  | [] => none

/-- Cut a text at a separator. -/
def cutAt (sep : Char) : List Char → List (List Char)
  | [] => [[]]
  | ch :: rest =>
    if ch = sep then [] :: cutAt sep rest
    else match cutAt sep rest with
      | [] => [[ch]]
      | piece :: pieces => (ch :: piece) :: pieces

/-- The mnemonic and the text after the first space. -/
def cutMnemonic : List Char → List Char × List Char
  | [] => ([], [])
  | ch :: rest =>
    if ch = ' ' then ([], rest)
    else ((ch :: (cutMnemonic rest).1), (cutMnemonic rest).2)

/-- The operands: numbers separated by commas, with spaces around them allowed (log entry 9). -/
def parseOperands (text : List Char) : Option (List Nat) :=
  match text.filter (· ≠ ' ') with
  | [] => some []
  | ch :: rest => (cutAt ',' (ch :: rest)).mapM parseNumber

/-- One mnemonic and its operands as a source line (R91, R92).  The text of WKEYS, WINS and LOADKEY needs at
least one byte, while READOUT 0 is a line (DESIGN CHOICE, log entry 9). -/
def sourceOf (mnemonic : String) (operands : List Nat) : Option SourceCommand :=
  match mnemonic, operands with
  | "NOP", [] => some .nop
  | "SELECT", [v] => some (.select v)
  | "WKEY", [i, d] => some (.wkey i d)
  | "WIN", [i, d] => some (.win i d)
  | "EXPAND", [n] => some (.expand n)
  | "ENCRYPT", [n] => some (.encrypt n)
  | "DECRYPT", [n] => some (.decrypt n)
  | "READ", [a] => some (.read a)
  | "CLRERR", [] => some .clrerr
  | "SRESET", [] => some .sreset
  | ".word", [w] => some (.word w)
  | "WKEYS", b :: bs => some (.wkeys (b :: bs))
  | "WINS", b :: bs => some (.wins (b :: bs))
  | "READOUT", [n] => some (.readout n)
  | "LOADKEY", b :: bs => some (.loadkey (b :: bs))
  | "STATUS", [] => some .status
  | _, _ => none

/-- A line of text as a source line. -/
def parseLine (text : List Char) : Option SourceCommand :=
  match parseOperands (cutMnemonic text).2 with
  | some operands => sourceOf (String.ofList (cutMnemonic text).1) operands
  | none => none

/-- A line of text to its command words. -/
def assembleText (text : List Char) : Option (List CmdWord) :=
  match parseLine text with
  | some line => assemble line
  | none => none

end Sys2Proof
end

