-- ==== Sys2Proof/Machine/Clock.lean ====
section
/-! DEFINITION. Machine/Clock.lean: the block at its pins, one rising edge at a time (R34, R260, R261,
R265-R268), and the latencies (R270).  `clockEdge` and `step` are two views of one block: a claim says
that the edges of a command add up to its transaction. -/

namespace Sys2Proof.Machine

/-- The input pins as sampled at one rising edge (R34). -/
structure Pins where
  rst : Bool
  cmdValid : Bool
  cmd : CmdWord
deriving DecidableEq, Repr

/-- `cmd_ready = (SEQ == IDLE) && !rst` (R34). -/
def cmdReady (rst : Bool) (s : State) : Bool := decide (s.seq = .idle) && !rst

/-- `busy = (SEQ != IDLE)` (R34). -/
def busy (s : State) : Bool := decide (s.seq ≠ .idle)

/-- `rsp_valid = RSP_PENDING` (R34). -/
def rspValid (s : State) : Bool := s.rspPending.isSome

/-- One rising edge of `clk`.  `rst` wins (R252, R260); a command is accepted where
`cmd_valid && cmd_ready` is 1 (R34); elsewhere `cmd_valid` and `cmd` are ignored (R265). -/
def clockEdge (p : Pins) (s : State) : Result :=
  if p.rst then .next (resetAll s)
  else if p.cmdValid && cmdReady p.rst s then
    match decode p.cmd with
    | .command i => acceptEdge i s
    | .illegal _ => execIllegal s
  else seqEdge s

/-- A sequence of edges, the first first; it stops at the first edge that stops. -/
def clockEdges : List Pins → State → Result
  | [], s => .next s
  | p :: ps, s =>
    match clockEdge p s with
    | .next t => clockEdges ps t
    | .fault f => .fault f
    | .refused r => .refused r

/-- A command's latency in cycles (R270). -/
def latency (i : Instr) (s : State) : Nat :=
  match i with
  | .nop => 1
  | .select _ => 1
  | .wkey _ _ => 1
  | .win _ _ => 1
  | .expand len => if checkExpand len s = .ok then 1 + scheduleSteps s.cfg else 1
  | .encrypt len => if checkCipher len s = .ok then s.cfg.T + 2 else 1
  | .decrypt len => if checkCipher len s = .ok then s.cfg.T + 2 else 1
  | .read _ => 1
  | .clrerr => 1
  | .sreset => 1

/-- The latency of an accepted word; an illegal word takes one cycle (R238, R270). -/
def wordLatency (c : CmdWord) (s : State) : Nat :=
  match decode c with
  | .command i => latency i s
  | .illegal _ => 1

end Sys2Proof.Machine
end

