-- ==== Sys2Proof/Safety.lean ====
section
/-! DEFINITION. Safety.lean: what counts as a good state and a safe step, in the terms the claims use. -/

namespace Sys2Proof.Machine

/-- Every byte a command can put in ERRCODE, 0x01..0x06 (R27, R230). -/
abbrev IsErrorCode (b : Byte) : Prop := 1 ≤ b.toNat ∧ b.toNat ≤ 6

/-- The round keys RK[0..n-1] are w-words (R35). -/
abbrev RoundKeysAreWords (c : Cfg) (rk : Vector Word 69) (n : Nat) : Prop :=
  ∀ j, j < n → IsWord c.w (wordAt rk j)

/-- The window slots WIN[0..m-1] are w-words (R35). -/
abbrev WindowIsWords (c : Cfg) (win : Vector Word 4) : Prop :=
  ∀ j, j < c.m → IsWord c.w (wordAt win j)

/-- How many round keys are written before the first key step (R166). -/
def firstKeyCount (c : Cfg) : Nat :=
  match c.family with
  | .speck => 1
  | .simon => c.m

/-- What holds of the block's state at every edge. -/
structure Inv (s : State) : Prop where
  /-- R22: the legal values after a successful SELECT. -/
  selected : s.cfgValid = true → s.cfg.Legal
  /-- R21, R50: with no variant selected the CFG registers hold their reset values. -/
  unselected : s.cfgValid = false → s.cfg = Cfg.reset
  /-- R24: a schedule belongs to a selected variant. -/
  keyOfVariant : s.keyValid = true → s.cfgValid = true
  /-- R26, R27: with ERR = 0, ERRCODE is 0x00. -/
  errClear : s.err = false → s.errcode = 0
  /-- R27, R233: with ERR = 1, ERRCODE is a code of R230 other than OK. -/
  errSet : s.err = true → IsErrorCode s.errcode
  /-- R35: the round keys of a valid schedule are w-words. -/
  roundKeys : s.keyValid = true → RoundKeysAreWords s.cfg s.rk s.cfg.T
  /-- R46, R230: a response carries a code of R230, and data only with OK. -/
  response : ∀ r, s.rspPending = some r →
    (r.extractLsb' 8 8).toNat ≤ 6 ∧ (r.extractLsb' 8 8 ≠ 0 → r.extractLsb' 0 8 = 0)
  /-- R268: no response is driven while a command is in progress. -/
  busyResponse : s.seq ≠ .idle → s.rspPending = none
  /-- R234: only a selected variant starts the sequencer. -/
  busyVariant : s.seq ≠ .idle → s.cfgValid = true
  /-- R170: in KS_STEP a step is still to do, the window holds w-words, and so do the round keys written
  so far. -/
  inSchedule : s.seq = .ksStep →
    s.rc.toNat < scheduleSteps s.cfg ∧ WindowIsWords s.cfg s.win ∧
    RoundKeysAreWords s.cfg s.rk (firstKeyCount s.cfg + s.rc.toNat)
  /-- R206: in RF_ROUND a round is still to do, under a valid schedule, on w-words. -/
  inRounds : s.seq = .rfRound →
    s.keyValid = true ∧ s.rc.toNat < s.cfg.T ∧ IsWord s.cfg.w s.x ∧ IsWord s.cfg.w s.y
  /-- R206: in RF_PACK all T rounds are done. -/
  inPack : s.seq = .rfPack →
    s.keyValid = true ∧ s.rc.toNat = s.cfg.T ∧ IsWord s.cfg.w s.x ∧ IsWord s.cfg.w s.y

/-- R24: the block is idle, and if KEY_VALID is 1 then RK[0..T-1] is the complete schedule of some key
bytes under the current CFG registers. -/
def KeyScheduled (s : State) : Prop :=
  s.seq = .idle ∧
  (s.keyValid = true → s.cfg.Legal ∧ ∃ (key : Vector Byte 32) (k : Schedule),
    ∀ j, j < s.cfg.T → wordAt s.rk j = wordAt (runSchedule s.cfg key k).rk j)

/-- The host can tell the two states apart neither through READ nor at the pins (R36, R65, R211). -/
abbrev SameToHost (s t : State) : Prop :=
  s.outbuf = t.outbuf ∧ s.cfgValid = t.cfgValid ∧ s.keyValid = t.keyValid ∧ s.err = t.err ∧
  s.errcode = t.errcode ∧ s.cfg.vidx = t.cfg.vidx ∧ s.cfg.family = t.cfg.family ∧
  s.cfg.wbits = t.cfg.wbits ∧ s.cfg.kwords = t.cfg.kwords ∧ s.cfg.rounds = t.cfg.rounds ∧
  s.cfg.alpha = t.cfg.alpha ∧ s.cfg.beta = t.cfg.beta ∧ s.rspPending = t.rspPending

/-- Every state element but RSP_PENDING at the value of R50.  X, Y, WIN and RK are unspecified there, so
nothing is said of them. -/
abbrev AfterReset (t : State) : Prop :=
  t.cfgValid = false ∧ t.cfg = ⟨0, .simon, 0, 0, 0, 0, 0, 0⟩ ∧ t.keyValid = false ∧
  t.err = false ∧ t.errcode = 0x00#8 ∧ (∀ i, i < 32 → byteAt t.keybuf i = 0x00#8) ∧
  (∀ i, i < 16 → byteAt t.inbuf i = 0x00#8) ∧ (∀ i, i < 16 → byteAt t.outbuf i = 0x00#8) ∧
  t.seq = .idle ∧ t.rc = 0 ∧ t.dir = .encrypt

/-- The response a command left on `rsp`: its code and its data (R46). -/
abbrev Responds (t : State) (code : ResultCode) (data : Byte) : Prop :=
  t.rspPending = some (responseWord code data)

end Sys2Proof.Machine

namespace Sys2Proof

/-- The text `t` writes the number `n`, decimal or hexadecimal with `0x` (R91), most significant digit first,
leading zeros allowed. -/
def NumberText (t : List Char) (n : Nat) : Prop :=
  (∃ ds : List (Fin 10), ds ≠ [] ∧ t = ds.map (fun d => Nat.digitChar d.val) ∧
    n = ds.foldl (fun acc d => acc * 10 + d.val) 0) ∨
  (∃ ds : List (Fin 16), ds ≠ [] ∧ t = '0' :: 'x' :: ds.map (fun d => Nat.digitChar d.val) ∧
    n = ds.foldl (fun acc d => acc * 16 + d.val) 0)

end Sys2Proof
end

