-- ==== Sys2Proof/Certificates/Slice0/Obligations.lean ====
section
/-! DEFINITION. Certificates/Slice0/Obligations.lean: the statements for the provers.  Each is a claim about
the block that the spec makes; OBLIGATIONS.json names its rule and quotes it. -/

open Sys2Proof Sys2Proof.Machine

-- The command encoding

/-- Words written out from the spec's tables (R91, 95_test_vectors.md V6) decode to the commands they
stand for. -/
def Obligations.SpecWordsDecode : Prop :=
  decode 0x00000000#32 = .command .nop ∧
  decode 0x10000007#32 = .command (.select 7) ∧
  decode 0x20001F55#32 = .command (.wkey 31 0x55) ∧
  decode 0x30000F01#32 = .command (.win 15 0x01) ∧
  decode 0x40000008#32 = .command (.expand 8) ∧
  decode 0x50000004#32 = .command (.encrypt 4) ∧
  decode 0x60000004#32 = .command (.decrypt 4) ∧
  decode 0x700000FF#32 = .command (.read 0xFF) ∧
  decode 0x80000000#32 = .command .clrerr ∧
  decode 0x90000000#32 = .command .sreset

/-- Decoding an encoded command gives it back, whatever its operands. -/
def Obligations.DecodeOfEncodeIsTheCommand : Prop :=
  ∀ i : Instr, decode (encode i) = .command i

/-- A word that decodes to a command is that command's one encoding. -/
def Obligations.EncodeOfDecodeIsTheWord : Prop :=
  ∀ (c : CmdWord) (i : Instr), decode c = .command i → encode i = c

/-- R87: the opcode map and the decoder agree on every word: a word is command X exactly when X's row
matches it, at most one row matches, and a word that no row matches is illegal. -/
def Obligations.OpcodeMapDecidesEveryWord : Prop :=
  (∀ (c : CmdWord) (row : OpcodeRow), row ∈ opcodeTable →
    (c &&& row.mask = row.pattern ↔
      ∃ i, decode c = .command i ∧ i.mnemonic = row.mnemonic)) ∧
  (∀ (c : CmdWord) (row row' : OpcodeRow), row ∈ opcodeTable → row' ∈ opcodeTable →
    c &&& row.mask = row.pattern → c &&& row'.mask = row'.pattern → row = row') ∧
  (∀ c : CmdWord, (∃ why, decode c = .illegal why) ↔
    ∀ row ∈ opcodeTable, c &&& row.mask ≠ row.pattern)

/-- R91, R92: what the assembler makes of each source line (a command or pseudo-command with its numbers),
and which lines it refuses.  R91 lists the refusals of vidx, idx, data, len and addr.  The model's choices
(DESIGN CHOICE, log entry 9) are that a byte list or a READOUT count above R92's bound and a `.word` value
of 2^32 or more are refused as well, and that n = 0 is accepted. -/
def Obligations.AssemblerAgreesWithTheEncoder : Prop :=
  (∀ i : Instr, assemble i.toSource = some [encode i]) ∧
  (∀ line : SourceCommand, assemble line = none ↔ line.wellFormed = false) ∧
  assemble .nop = some [0x00000000#32] ∧
  assemble .clrerr = some [0x80000000#32] ∧
  assemble .sreset = some [0x90000000#32] ∧
  assemble .status = some [0x70000010#32] ∧
  (∀ vidx, assemble (.select vidx) =
    if vidx ≤ 15 then some [BitVec.ofNat 32 (0x10000000 ||| vidx)] else none) ∧
  (∀ idx data, assemble (.wkey idx data) =
    if idx ≤ 31 ∧ data ≤ 255 then some [BitVec.ofNat 32 (0x20000000 ||| idx <<< 8 ||| data)]
    else none) ∧
  (∀ idx data, assemble (.win idx data) =
    if idx ≤ 15 ∧ data ≤ 255 then some [BitVec.ofNat 32 (0x30000000 ||| idx <<< 8 ||| data)]
    else none) ∧
  (∀ len, assemble (.expand len) =
    if len ≤ 63 then some [BitVec.ofNat 32 (0x40000000 ||| len)] else none) ∧
  (∀ len, assemble (.encrypt len) =
    if len ≤ 63 then some [BitVec.ofNat 32 (0x50000000 ||| len)] else none) ∧
  (∀ len, assemble (.decrypt len) =
    if len ≤ 63 then some [BitVec.ofNat 32 (0x60000000 ||| len)] else none) ∧
  (∀ addr, assemble (.read addr) =
    if addr ≤ 255 then some [BitVec.ofNat 32 (0x70000000 ||| addr)] else none) ∧
  (∀ value, assemble (.word value) =
    if value ≤ 0xFFFFFFFF then some [BitVec.ofNat 32 value] else none) ∧
  (∀ bytes, assemble (.wkeys bytes) =
    if bytes.length ≤ 32 ∧ ∀ b ∈ bytes, b ≤ 255 then
      some (bytes.mapIdx fun k b => BitVec.ofNat 32 (0x20000000 ||| k <<< 8 ||| b))
    else none) ∧
  (∀ bytes, assemble (.wins bytes) =
    if bytes.length ≤ 16 ∧ ∀ b ∈ bytes, b ≤ 255 then
      some (bytes.mapIdx fun k b => BitVec.ofNat 32 (0x30000000 ||| k <<< 8 ||| b))
    else none) ∧
  (∀ n, assemble (.readout n) =
    if n ≤ 16 then some ((List.range n).map fun k => BitVec.ofNat 32 (0x70000000 ||| k))
    else none) ∧
  (∀ bytes, assemble (.loadkey bytes) =
    if bytes.length ≤ 32 ∧ ∀ b ∈ bytes, b ≤ 255 then
      some ((bytes.mapIdx fun k b => BitVec.ofNat 32 (0x20000000 ||| k <<< 8 ||| b)) ++
        [BitVec.ofNat 32 (0x40000000 ||| bytes.length)])
    else none)

-- Word arithmetic, rotations, byte packing

/-- R100: the mask of each legal width. -/
def Obligations.MaskOfEachWidth : Prop :=
  maskW 16 = 0xFFFF#64 ∧ maskW 24 = 0xFFFFFF#64 ∧ maskW 32 = 0xFFFFFFFF#64 ∧
  maskW 48 = 0xFFFFFFFFFFFF#64 ∧ maskW 64 = 0xFFFFFFFFFFFFFFFF#64

/-- R102, R103: every bit of a rotation, for every amount from 0 to w. -/
def Obligations.RotationsBitByBit : Prop :=
  ∀ (w r j : Nat) (v : Word), w ∈ wordWidths → IsWord w v → r ≤ w →
    (rolW w v r).getLsbD j = (decide (j < w) && v.getLsbD ((j + w - r) % w)) ∧
    (rorW w v r).getLsbD j = (decide (j < w) && v.getLsbD ((j + r) % w))

/-- R111: the rotation laws. -/
def Obligations.RotationsUndoEachOther : Prop :=
  ∀ (w r : Nat) (v : Word), w ∈ wordWidths → IsWord w v → r ≤ w →
    rolW w (rorW w v r) r = v ∧ rorW w (rolW w v r) r = v ∧ rolW w v 0 = v ∧ rorW w v 0 = v

/-- R104-R107, R110: add and subtract are exact modulo `2^w`, xor and and act bit by bit below w and leave 0
above, and the arithmetic laws hold. -/
def Obligations.ArithmeticIsModularInTheWidth : Prop :=
  ∀ (w : Nat) (a b c : Word), w ∈ wordWidths → IsWord w a → IsWord w b → IsWord w c →
    (addW w a b).toNat = (a.toNat + b.toNat) % 2 ^ w ∧
    (subW w a b).toNat = (a.toNat + 2 ^ w - b.toNat) % 2 ^ w ∧
    (∀ j, (xorW w a b).getLsbD j = (decide (j < w) && (a.getLsbD j ^^ b.getLsbD j))) ∧
    (∀ j, (andW w a b).getLsbD j = (decide (j < w) && (a.getLsbD j && b.getLsbD j))) ∧
    addW w a b = addW w b a ∧
    addW w (addW w a b) c = addW w a (addW w b c) ∧
    subW w (addW w a b) b = a ∧
    addW w (subW w a b) b = a ∧
    xorW w (xorW w a b) b = a

/-- R101, R35: every operator gives a w-word. -/
def Obligations.OperatorsGiveWords : Prop :=
  ∀ (w r : Nat) (a b : Word), w ∈ wordWidths → IsWord w a → IsWord w b → r ≤ w →
    IsWord w (rolW w a r) ∧ IsWord w (rorW w a r) ∧ IsWord w (addW w a b) ∧
    IsWord w (subW w a b) ∧ IsWord w (xorW w a b) ∧ IsWord w (andW w a b)

/-- R61, R121: unpack is little-endian.  Byte `b` of word `j`, which is bits `8b+7 .. 8b`, is
`B[j*wb + b]`, and the bits from w up are 0. -/
def Obligations.UnpackIsLittleEndian : Prop :=
  ∀ (n : Nat) (c : Cfg) (buf : Vector Byte n) (j : Nat), c.w ∈ wordWidths →
    IsWord c.w (unpack c buf j) ∧
    (∀ k, k < c.w →
      (unpack c buf j).getLsbD k = (byteAt buf (j * c.wb + k / 8)).getLsbD (k % 8)) ∧
    ∀ b, b < c.wb → byteOf (unpack c buf j) b = byteAt buf (j * c.wb + b)

/-- R128: unpack after pack gives the word back, and packing an unpacked word over any buffer writes the
bytes it was unpacked from and no others. -/
def Obligations.PackAndUnpackRoundTrip : Prop :=
  ∀ (n : Nat) (c : Cfg) (buf buf' : Vector Byte n) (j : Nat) (v : Word),
    c.w ∈ wordWidths → j * c.wb + c.wb ≤ n → IsWord c.w v →
    unpack c (pack c buf j v) j = v ∧
    (∀ b, b < c.wb →
      byteAt (pack c buf' j (unpack c buf j)) (j * c.wb + b) = byteAt buf (j * c.wb + b)) ∧
    (∀ i, i < j * c.wb ∨ j * c.wb + c.wb ≤ i → byteAt (pack c buf j v) i = byteAt buf i)

/-- R186: each family's inverse round undoes its round, and the round undoes its inverse. -/
def Obligations.RoundsAndInversesCancel : Prop :=
  ∀ (w alpha beta : Nat) (x y k : Word), w ∈ wordWidths → alpha < w → beta < w →
    IsWord w x → IsWord w y → IsWord w k →
    speckInv w alpha beta k (speckRound w alpha beta k ⟨x, y⟩) = ⟨x, y⟩ ∧
    simonInv w k (simonRound w k ⟨x, y⟩) = ⟨x, y⟩ ∧
    speckRound w alpha beta k (speckInv w alpha beta k ⟨x, y⟩) = ⟨x, y⟩ ∧
    simonRound w k (simonInv w k ⟨x, y⟩) = ⟨x, y⟩

-- The step

/-- A presented word that decodes to a command runs as that command, on the state with the word taken from
the pins, when no command is in progress (R16, R34, R44; that events wait in `port` is the model's
choice, log entry 3). -/
def Obligations.StepRunsTheDecodedCommand : Prop :=
  ∀ (s : State) (c : CmdWord) (rest : List PortEvent) (i : Instr),
    s.seq = .idle → s.port = .command c :: rest → decode c = .command i →
    step s = exec i { s with port := rest }

/-- R238: a word that is no command is accepted and fails with ILLEGAL_COMMAND, changing only ERR and
ERRCODE, in one cycle (the waiting events in `port` are the model's, log entry 3). -/
def Obligations.IllegalWordsFailInOneCycle : Prop :=
  ∀ (s : State) (c : CmdWord) (why : Illegal), s.seq = .idle → decode c = .illegal why →
    (∀ rest, s.port = .command c :: rest →
      step s = .next { s with
        port := rest, err := true, errcode := 0x06#8, rspPending := some 0x0600#16 }) ∧
    clockEdge ⟨false, true, c⟩ s =
      .next { s with err := true, errcode := 0x06#8, rspPending := some 0x0600#16 }

/-- R251, R268: with nothing presented an idle block holds all its state, and only RSP_PENDING falls.  The
two clauses on `step` are the model's choice (DESIGN CHOICE, log entry 3): that an empty `port` means
nothing presented, that a step on it is one idle edge, and that an idle event is taken from the list. -/
def Obligations.IdleBlockHoldsItsState : Prop :=
  ∀ s : State, s.seq = .idle →
    (s.port = [] → step s = .next { s with rspPending := none }) ∧
    (∀ rest, s.port = .idle :: rest →
      step s = .next { s with port := rest, rspPending := none }) ∧
    (∀ c, clockEdge ⟨false, false, c⟩ s = .next { s with rspPending := none })

/-- R44, R265: while a command is in progress the block ignores what is presented: the edge is the same
whatever `cmd_valid` and `cmd` are.  The clause on `step`, that a word waiting in `port` stays there, is
about the model's own list (DESIGN CHOICE, log entry 3). -/
def Obligations.BusyBlockIgnoresTheCommandPort : Prop :=
  ∀ (s : State) (v : Bool) (c : CmdWord) (rest : List PortEvent) (t : State), s.seq ≠ .idle →
    clockEdge ⟨false, v, c⟩ s = clockEdge ⟨false, false, 0⟩ s ∧
    (s.port = .command c :: rest → step s = .next t → t.port = s.port)

/-- R50, R222, R260, R261: both resets, from any state and in the middle of any command, give every state
element the value of R50's table; the `rst` pin leaves no response, SRESET leaves its own.  The clause on
a `.reset` event at the head of `port`, and what is said of `t.port`, are about the model's own list
(DESIGN CHOICE, log entry 3). -/
def Obligations.ResetsGiveTheResetValues : Prop :=
  (∀ (s : State) (v : Bool) (c : CmdWord), ∃ t, clockEdge ⟨true, v, c⟩ s = .next t ∧
    AfterReset t ∧ t.rspPending = none ∧ t.roms = s.roms ∧ t.port = s.port) ∧
  (∀ (s : State) (rest : List PortEvent), s.port = .reset :: rest → ∃ t, step s = .next t ∧
    AfterReset t ∧ t.rspPending = none ∧ t.roms = s.roms ∧ t.port = rest) ∧
  (∀ s : State, ∃ t, exec .sreset s = .next t ∧
    AfterReset t ∧ t.rspPending = some 0x0000#16 ∧ t.roms = s.roms ∧ t.port = s.port) ∧
  AfterReset State.reset ∧ State.reset.rspPending = none

-- The simple commands: what each does and what it leaves alone

/-- R220: NOP only responds. -/
def Obligations.NopOnlyResponds : Prop :=
  ∀ s : State, exec .nop s = .next { s with rspPending := some 0x0000#16, seq := .idle }

/-- R221: CLRERR clears ERR and ERRCODE and leaves everything else. -/
def Obligations.ClrerrClearsErrAndErrcode : Prop :=
  ∀ s : State, exec .clrerr s =
    .next { s with err := false, errcode := 0x00#8, rspPending := some 0x0000#16, seq := .idle }

/-- R124, R125: WKEY and WIN write the one byte they name, with or without a variant, and leave everything
else. -/
def Obligations.BufferWritesChangeOneByte : Prop :=
  (∀ (s : State) (idx : BitVec 5) (data : Byte), ∃ t, exec (.wkey idx data) s = .next t ∧
    byteAt t.keybuf idx.toNat = data ∧
    (∀ i, i ≠ idx.toNat → byteAt t.keybuf i = byteAt s.keybuf i) ∧
    t = { s with keybuf := t.keybuf, rspPending := some 0x0000#16, seq := .idle }) ∧
  (∀ (s : State) (idx : BitVec 4) (data : Byte), ∃ t, exec (.win idx data) s = .next t ∧
    byteAt t.inbuf idx.toNat = data ∧
    (∀ i, i ≠ idx.toNat → byteAt t.inbuf i = byteAt s.inbuf i) ∧
    t = { s with inbuf := t.inbuf, rspPending := some 0x0000#16, seq := .idle })

/-- R65, R126: what READ returns at every address of the read window; READ changes no state. -/
def Obligations.ReadReturnsTheWindowMap : Prop :=
  ∀ (s : State) (addr : BitVec 8), ∃ data : Byte,
    exec (.read addr) s = .next { s with rspPending := some (0x00#8 ++ data), seq := .idle } ∧
    (addr.toNat ≤ 0x0F → data = byteAt s.outbuf addr.toNat) ∧
    (addr = 0x10#8 → data.getLsbD 0 = s.cfgValid ∧ data.getLsbD 1 = s.keyValid ∧
      data.getLsbD 2 = s.err ∧ data.extractLsb' 3 5 = 0) ∧
    (addr = 0x11#8 → data = s.errcode) ∧
    (addr = 0x12#8 → data.toNat = s.cfg.vidx.toNat) ∧
    (addr = 0x13#8 → data = (if s.cfg.family = .speck then 1 else 0)) ∧
    (addr = 0x14#8 → data.toNat = s.cfg.wbits.toNat) ∧
    (addr = 0x15#8 → data.toNat = s.cfg.kwords.toNat) ∧
    (addr = 0x16#8 → data.toNat = s.cfg.rounds.toNat) ∧
    (addr = 0x17#8 → data.toNat = s.cfg.alpha.toNat) ∧
    (addr = 0x18#8 → data.toNat = s.cfg.beta.toNat) ∧
    (addr = 0x19#8 → data.toNat = (if s.cfgValid then (s.cfg.wbits.toNat + 7) / 8 else 0)) ∧
    (addr = 0x1A#8 → data = 0x53#8) ∧
    (addr = 0x1B#8 → data = 0x01#8) ∧
    (0x1C ≤ addr.toNat → data = 0x00#8)

-- SELECT

/-- R146: the checks on the DROM word, in order; the first that fails sets the code.  A failing SELECT
changes nothing but ERR and ERRCODE (R147). -/
def Obligations.SelectChecksTheRomWordInOrder : Prop :=
  ∀ (s : State) (vidx : BitVec 4) (d : BitVec 34) (code : BitVec 8),
    d = s.roms.drom[vidx.toNat] →
    code =
      (if d.getLsbD 0 = false then 0x01#8
      else if (d.extractLsb' 2 7).toNat ∉ [16, 24, 32, 48, 64] then 0x01#8
      else if (d.extractLsb' 9 3).toNat ∉ [2, 3, 4] then 0x01#8
      else if (d.extractLsb' 12 7).toNat < 22 ∨ (d.extractLsb' 12 7).toNat > 69 then 0x01#8
      else if d.getLsbD 1 = false ∧ (d.extractLsb' 31 3).toNat > 4 then 0x01#8
      else if d.getLsbD 1 = true ∧ ((d.extractLsb' 19 6).toNat ≥ (d.extractLsb' 2 7).toNat ∨
          (d.extractLsb' 25 6).toNat ≥ (d.extractLsb' 2 7).toNat) then 0x04#8
      else 0x00#8) →
    ∃ t, exec (.select vidx) s = .next t ∧ t.rspPending = some (code ++ 0x00#8) ∧
      (code ≠ 0x00#8 → t = { s with
        err := true, errcode := code, rspPending := some (code ++ 0x00#8), seq := .idle })

/-- R147: a SELECT whose checks pass copies the DROM word's fields into the CFG registers, sets CFG_VALID,
clears KEY_VALID (for the same VIDX too), and leaves everything else. -/
def Obligations.SelectLoadsTheDescriptor : Prop :=
  ∀ (s : State) (vidx : BitVec 4) (d : BitVec 34), d = s.roms.drom[vidx.toNat] →
    checkDescriptor (descriptorOfWord d) = .ok →
    exec (.select vidx) s = .next { s with
      cfg :=
        { vidx := vidx
          family := if d.getLsbD 1 then .speck else .simon
          wbits := d.extractLsb' 2 7
          kwords := d.extractLsb' 9 3
          rounds := d.extractLsb' 12 7
          alpha := if d.getLsbD 1 then d.extractLsb' 19 6 else 0
          beta := if d.getLsbD 1 then d.extractLsb' 25 6 else 0
          z := if d.getLsbD 1 then 0 else s.roms.zrom.getD (d.extractLsb' 31 3).toNat 0 }
      cfgValid := true
      keyValid := false
      rspPending := some 0x0000#16
      seq := .idle }

/-- R141, R142, R144: what each of the sixteen slots of the default ROM selects, from reset.  The rounds, the
rotation amounts and the z sequences are PRESUMED values (log entry 13): the spec marks them as general
knowledge and not its source's. -/
def Obligations.DefaultCatalogSelects : Prop :=
  ∀ (vidx : BitVec 4), ∃ t, exec (.select vidx) State.reset = .next t ∧
    (t.cfg.family, t.cfg.w, t.cfg.m, t.cfg.T, t.cfg.alpha.toNat, t.cfg.beta.toNat) =
      (match vidx.toNat with
      | 0 => (Family.simon, 16, 4, 32, 0, 0)
      | 1 => (Family.simon, 24, 3, 36, 0, 0)
      | 2 => (Family.simon, 32, 4, 44, 0, 0)
      | 3 => (Family.simon, 48, 2, 52, 0, 0)
      | 4 => (Family.simon, 48, 3, 54, 0, 0)
      | 5 => (Family.simon, 64, 3, 69, 0, 0)
      | 6 => (Family.simon, 64, 2, 68, 0, 0)
      | 7 => (Family.speck, 16, 4, 22, 7, 2)
      | 8 => (Family.speck, 24, 3, 22, 8, 3)
      | 9 => (Family.speck, 24, 4, 23, 8, 3)
      | 10 => (Family.speck, 48, 2, 28, 8, 3)
      | 11 => (Family.speck, 32, 4, 27, 8, 3)
      | 12 => (Family.speck, 64, 2, 32, 8, 3)
      | 13 => (Family.speck, 64, 4, 34, 8, 3)
      | _ => (Family.simon, 0, 0, 0, 0, 0)) ∧
    t.cfg.z =
      (match vidx.toNat with
      | 0 => 0x19C3522FB386A45F#62
      | 1 => 0x19C3522FB386A45F#62
      | 2 => 0x3C2CE51207A635DB#62
      | 3 => 0x3369F885192C0EF5#62
      | 4 => 0x3C2CE51207A635DB#62
      | 5 => 0x3C2CE51207A635DB#62
      | 6 => 0x3369F885192C0EF5#62
      | _ => 0x0000000000000000#62) ∧
    (vidx.toNat ≤ 13 → t.cfgValid = true ∧ t.cfg.vidx = vidx ∧ Responds t .ok 0) ∧
    (14 ≤ vidx.toNat → t.cfgValid = false ∧ Responds t .invalidVariant 0)

-- EXPAND

/-- R161-R168 for SPECK: EXPAND leaves the Speck key schedule in RK[0..T-1], written here as the recurrence
on the round keys `k` and the other words `l` (`WIN[1..m-1]`), without a window; it sets KEY_VALID,
clears KEYBUF, leaves RK[T..68] and WIN[m..3], and leaves everything else.  RC and WIN end as R170's last
edge leaves them (log entry 10). -/
def Obligations.ExpandGivesTheSpeckSchedule : Prop :=
  ∀ (s : State) (len : BitVec 6), s.cfgValid = true → s.cfg.Legal → s.cfg.family = .speck →
    len.toNat = s.cfg.m * s.cfg.wb →
    ∃ (t : State) (l : Nat → Word), exec (.expand len) s = .next t ∧
      wordAt t.rk 0 = unpack s.cfg s.keybuf 0 ∧
      (∀ j, j + 1 < s.cfg.m → l j = unpack s.cfg s.keybuf (j + 1)) ∧
      (∀ i, i + 1 < s.cfg.T →
        l (i + s.cfg.m - 1) =
          xorW s.cfg.w (addW s.cfg.w (rorW s.cfg.w (l i) s.cfg.alpha.toNat) (wordAt t.rk i))
            (BitVec.ofNat 64 i) ∧
        wordAt t.rk (i + 1) =
          xorW s.cfg.w (rolW s.cfg.w (wordAt t.rk i) s.cfg.beta.toNat) (l (i + s.cfg.m - 1))) ∧
      (∀ j, s.cfg.T ≤ j → wordAt t.rk j = wordAt s.rk j) ∧
      wordAt t.win 0 = wordAt t.rk (s.cfg.T - 1) ∧
      (∀ j, 1 ≤ j → j < s.cfg.m → wordAt t.win j = l (s.cfg.T - 1 + (j - 1))) ∧
      (∀ j, s.cfg.m ≤ j → wordAt t.win j = wordAt s.win j) ∧
      (∀ b, byteAt t.keybuf b = 0x00#8) ∧
      t = { s with
        win := t.win, rk := t.rk, rc := BitVec.ofNat 7 (s.cfg.T - 1), keyValid := true,
        keybuf := t.keybuf, rspPending := some 0x0000#16, seq := .idle }

/-- R161-R168 for SIMON: EXPAND leaves the Simon key schedule in RK[0..T-1], written here as the recurrence
on the round keys alone: the first m are the key words, and each later one follows from the m before
it, the constant 0xFFFFFFFFFFFFFFFC masked to w bits, and the bit `i mod 62` of CFG_Z.  RC and WIN end as R170's last edge leaves them (log entry 10). -/
def Obligations.ExpandGivesTheSimonSchedule : Prop :=
  ∀ (s : State) (len : BitVec 6), s.cfgValid = true → s.cfg.Legal → s.cfg.family = .simon →
    len.toNat = s.cfg.m * s.cfg.wb →
    ∃ t : State, exec (.expand len) s = .next t ∧
      (∀ j, j < s.cfg.m → wordAt t.rk j = unpack s.cfg s.keybuf j) ∧
      (∀ i, i + s.cfg.m < s.cfg.T → ∃ u : Word,
        u = (if s.cfg.m = 4 then
            xorW s.cfg.w (rorW s.cfg.w (wordAt t.rk (i + s.cfg.m - 1)) 3) (wordAt t.rk (i + 1))
          else rorW s.cfg.w (wordAt t.rk (i + s.cfg.m - 1)) 3) ∧
        wordAt t.rk (i + s.cfg.m) =
          xorW s.cfg.w (xorW s.cfg.w (xorW s.cfg.w u (wordAt t.rk i)) (rorW s.cfg.w u 1))
            ((0xFFFFFFFFFFFFFFFC#64 &&& BitVec.ofNat 64 (2 ^ s.cfg.w - 1)) ^^^
              (if s.cfg.z.getLsbD (i % 62) then 1 else 0))) ∧
      (∀ j, s.cfg.T ≤ j → wordAt t.rk j = wordAt s.rk j) ∧
      (∀ j, j < s.cfg.m → wordAt t.win j = wordAt t.rk (s.cfg.T - s.cfg.m + j)) ∧
      (∀ j, s.cfg.m ≤ j → wordAt t.win j = wordAt s.win j) ∧
      (∀ b, byteAt t.keybuf b = 0x00#8) ∧
      t = { s with
        win := t.win, rk := t.rk, rc := BitVec.ofNat 7 (s.cfg.T - s.cfg.m), keyValid := true,
        keybuf := t.keybuf, rspPending := some 0x0000#16, seq := .idle }

/-- R169: the round keys EXPAND writes depend on the CFG registers and on KEYBUF[0..m*wb-1] only. -/
def Obligations.ScheduleDependsOnCfgAndKeyOnly : Prop :=
  ∀ (s s' t t' : State) (len : BitVec 6), s.cfgValid = true → s.cfg.Legal →
    s'.cfgValid = true → s'.cfg = { s.cfg with vidx := s'.cfg.vidx } →
    (∀ b, b < s.cfg.m * s.cfg.wb → byteAt s.keybuf b = byteAt s'.keybuf b) →
    len.toNat = s.cfg.m * s.cfg.wb →
    exec (.expand len) s = .next t → exec (.expand len) s' = .next t' →
    ∀ j, j < s.cfg.T → wordAt t.rk j = wordAt t'.rk j

-- ENCRYPT and DECRYPT

/-- R200-R205 for SPECK: the halves after each of the T rounds of ENCRYPT and DECRYPT (`xs`, `ys`), the
bytes of OUTBUF, and what is left alone.  X, Y and RC end as R206's last edge leaves them (log entry
10). -/
def Obligations.SpeckBlockCommandsRunTheRounds : Prop :=
  ∀ (s : State) (len : BitVec 6) (dir : Dir), s.cfgValid = true → s.cfg.Legal →
    s.cfg.family = .speck → s.keyValid = true → len.toNat = 2 * s.cfg.wb →
    ∃ (t : State) (xs ys : Nat → Word),
      exec (if dir = .encrypt then .encrypt len else .decrypt len) s = .next t ∧
      ys 0 = unpack s.cfg s.inbuf 0 ∧ xs 0 = unpack s.cfg s.inbuf 1 ∧
      (dir = .encrypt → ∀ j, j < s.cfg.T →
        xs (j + 1) = xorW s.cfg.w
          (addW s.cfg.w (rorW s.cfg.w (xs j) s.cfg.alpha.toNat) (ys j)) (wordAt s.rk j) ∧
        ys (j + 1) = xorW s.cfg.w (rolW s.cfg.w (ys j) s.cfg.beta.toNat) (xs (j + 1))) ∧
      (dir = .decrypt → ∀ j, j < s.cfg.T →
        ys (j + 1) = rorW s.cfg.w (xorW s.cfg.w (ys j) (xs j)) s.cfg.beta.toNat ∧
        xs (j + 1) = rolW s.cfg.w
          (subW s.cfg.w (xorW s.cfg.w (xs j) (wordAt s.rk (s.cfg.T - 1 - j))) (ys (j + 1)))
          s.cfg.alpha.toNat) ∧
      (∀ b, b < 16 → byteAt t.outbuf b =
        (if b < s.cfg.wb then byteOf (ys s.cfg.T) b
        else if b < 2 * s.cfg.wb then byteOf (xs s.cfg.T) (b - s.cfg.wb) else 0x00#8)) ∧
      t = { s with
        x := xs s.cfg.T, y := ys s.cfg.T, dir := dir, rc := BitVec.ofNat 7 s.cfg.T,
        outbuf := t.outbuf, rspPending := some 0x0000#16, seq := .idle }

/-- R200-R205 for SIMON: the same, with Simon's rounds (X, Y and RC at the end: log entry 10). -/
def Obligations.SimonBlockCommandsRunTheRounds : Prop :=
  ∀ (s : State) (len : BitVec 6) (dir : Dir), s.cfgValid = true → s.cfg.Legal →
    s.cfg.family = .simon → s.keyValid = true → len.toNat = 2 * s.cfg.wb →
    ∃ (t : State) (xs ys : Nat → Word),
      exec (if dir = .encrypt then .encrypt len else .decrypt len) s = .next t ∧
      ys 0 = unpack s.cfg s.inbuf 0 ∧ xs 0 = unpack s.cfg s.inbuf 1 ∧
      (dir = .encrypt → ∀ j, j < s.cfg.T →
        ys (j + 1) = xs j ∧
        xs (j + 1) = xorW s.cfg.w
          (xorW s.cfg.w
            (xorW s.cfg.w (andW s.cfg.w (rolW s.cfg.w (xs j) 1) (rolW s.cfg.w (xs j) 8)) (ys j))
            (rolW s.cfg.w (xs j) 2))
          (wordAt s.rk j)) ∧
      (dir = .decrypt → ∀ j, j < s.cfg.T →
        xs (j + 1) = ys j ∧
        ys (j + 1) = xorW s.cfg.w (xorW s.cfg.w (xs j) (wordAt s.rk (s.cfg.T - 1 - j)))
          (xorW s.cfg.w (andW s.cfg.w (rolW s.cfg.w (ys j) 1) (rolW s.cfg.w (ys j) 8))
            (rolW s.cfg.w (ys j) 2))) ∧
      (∀ b, b < 16 → byteAt t.outbuf b =
        (if b < s.cfg.wb then byteOf (ys s.cfg.T) b
        else if b < 2 * s.cfg.wb then byteOf (xs s.cfg.T) (b - s.cfg.wb) else 0x00#8)) ∧
      t = { s with
        x := xs s.cfg.T, y := ys s.cfg.T, dir := dir, rc := BitVec.ofNat 7 s.cfg.T,
        outbuf := t.outbuf, rspPending := some 0x0000#16, seq := .idle }

/-- R209, R129: what ENCRYPT and DECRYPT write to OUTBUF depends on CFG, RK[0..T-1] and INBUF[0..2*wb-1]
only, and they do not change RK. -/
def Obligations.CipherDependsOnCfgKeysAndBlockOnly : Prop :=
  ∀ (s s' t t' : State) (len : BitVec 6) (i : Instr), i = .encrypt len ∨ i = .decrypt len →
    s.cfgValid = true → s.cfg.Legal → s.keyValid = true → len.toNat = 2 * s.cfg.wb →
    s'.cfgValid = true → s'.keyValid = true → s'.cfg = s.cfg →
    (∀ j, j < s.cfg.T → wordAt s.rk j = wordAt s'.rk j) →
    (∀ b, b < 2 * s.cfg.wb → byteAt s.inbuf b = byteAt s'.inbuf b) →
    exec i s = .next t → exec i s' = .next t' →
    (∀ b, b < 16 → byteAt t.outbuf b = byteAt t'.outbuf b) ∧ t.rk = s.rk

/-- R208: the round-trip law.  Under a valid schedule, ENCRYPT, then its result copied to
INBUF[0..2*wb-1], then DECRYPT, gives the block back; and so does DECRYPT first and ENCRYPT second. -/
def Obligations.DecryptUndoesEncrypt : Prop :=
  ∀ (s t u v : State) (len : BitVec 6) (first second : Instr),
    (first = .encrypt len ∧ second = .decrypt len) ∨ (first = .decrypt len ∧ second = .encrypt len) →
    s.cfgValid = true → s.cfg.Legal → s.keyValid = true → len.toNat = 2 * s.cfg.wb →
    exec first s = .next t →
    u.cfgValid = true → u.keyValid = true → u.cfg = s.cfg → u.rk = s.rk →
    (∀ b, b < 2 * s.cfg.wb → byteAt u.inbuf b = byteAt t.outbuf b) →
    exec second u = .next v →
    ∀ b, b < 2 * s.cfg.wb → byteAt v.outbuf b = byteAt s.inbuf b

-- Errors

/-- R234-R237, R240: the code of EXPAND, ENCRYPT and DECRYPT in every state whose CFG registers are legal
when CFG_VALID is 1: variant, then length, then schedule. -/
def Obligations.CheckedCommandsReportTheFirstError : Prop :=
  ∀ (s : State) (len : BitVec 6), (s.cfgValid = true → s.cfg.Legal) →
    (∃ t, exec (.expand len) s = .next t ∧
      Responds t
        (if s.cfgValid = false then .invalidVariant
        else if len.toNat ≠ s.cfg.kwords.toNat * ((s.cfg.wbits.toNat + 7) / 8) then
          .invalidKeyLength
        else .ok) 0) ∧
    (∀ i, i = .encrypt len ∨ i = .decrypt len → ∃ t, exec i s = .next t ∧
      Responds t
        (if s.cfgValid = false then .invalidVariant
        else if len.toNat ≠ 2 * ((s.cfg.wbits.toNat + 7) / 8) then .invalidBlockLength
        else if s.keyValid = false then .noSchedule
        else .ok) 0)

/-- R231, R207: a command that fails has no effect but ERR, ERRCODE and its response `{code, 0x00}`, and it
completes at its accepting edge.  The second half says the same of every accepted word, the illegal ones
among them. -/
def Obligations.FailingCommandsHaveNoOtherEffect : Prop :=
  (∀ (i : Instr) (s t : State) (r : BitVec 16), exec i s = .next t → t.rspPending = some r →
    r.extractLsb' 8 8 ≠ 0x00#8 →
    r.extractLsb' 0 8 = 0x00#8 ∧ acceptEdge i s = .next t ∧
    t = { s with err := true, errcode := r.extractLsb' 8 8, rspPending := some r, seq := .idle }) ∧
  (∀ (c : CmdWord) (s t : State) (r : BitVec 16), s.seq = .idle → runWord c s = .next t →
    t.rspPending = some r → r.extractLsb' 8 8 ≠ 0x00#8 →
    r.extractLsb' 0 8 = 0x00#8 ∧ clockEdge ⟨false, true, c⟩ s = .next t ∧
    t = { s with err := true, errcode := r.extractLsb' 8 8, rspPending := some r })

/-- R26, R27, R233: a command with a non-zero code sets ERR and records the code; one that completes with
OK changes neither register, but for CLRERR and SRESET, which clear both. -/
def Obligations.ErrorRegistersFollowTheResponses : Prop :=
  ∀ (i : Instr) (s t : State) (r : BitVec 16), exec i s = .next t → t.rspPending = some r →
    (r.extractLsb' 8 8 ≠ 0x00#8 → t.err = true ∧ t.errcode = r.extractLsb' 8 8) ∧
    (r.extractLsb' 8 8 = 0x00#8 →
      if i = .clrerr ∨ i = .sreset then t.err = false ∧ t.errcode = 0x00#8
      else t.err = s.err ∧ t.errcode = s.errcode)

-- Rules about the whole machine

/-- R46: every command that completes leaves exactly one response, of a code of R230; its data is 0x00 but
for a READ. -/
def Obligations.EveryCommandResponds : Prop :=
  ∀ (i : Instr) (s t : State), exec i s = .next t →
    ∃ (code : ResultCode) (data : Byte), Responds t code data ∧
      ((∀ addr, i ≠ .read addr) → data = 0x00#8) ∧ t.seq = .idle

/-- R22, R24, R28, R29, R32, R36: which commands write which state.  Each piece of state is unchanged by
every command but the ones named. -/
def Obligations.StateIsWrittenOnlyByItsCommands : Prop :=
  ∀ (i : Instr) (s t : State), exec i s = .next t → i ≠ .sreset →
    ((∀ v, i ≠ .select v) → t.cfg = s.cfg ∧ t.cfgValid = s.cfgValid) ∧
    ((∀ v, i ≠ .select v) → (∀ n, i ≠ .expand n) → t.keyValid = s.keyValid) ∧
    ((∀ k d, i ≠ .wkey k d) → (∀ n, i ≠ .expand n) → t.keybuf = s.keybuf) ∧
    ((∀ k d, i ≠ .win k d) → t.inbuf = s.inbuf) ∧
    ((∀ n, i ≠ .encrypt n) → (∀ n, i ≠ .decrypt n) →
      t.outbuf = s.outbuf ∧ t.x = s.x ∧ t.y = s.y ∧ t.dir = s.dir) ∧
    ((∀ n, i ≠ .expand n) → t.rk = s.rk ∧ t.win = s.win)

/-- R24: the life of KEY_VALID: set by an EXPAND that succeeds, cleared by a SELECT that succeeds and by
SRESET, and nothing else changes it. -/
def Obligations.KeyValidIsSetByExpandAndClearedBySelect : Prop :=
  ∀ (i : Instr) (s t : State), exec i s = .next t → t.keyValid ≠ s.keyValid →
    ((∃ n, i = .expand n) ∧ t.keyValid = true ∧ Responds t .ok 0) ∨
    ((∃ v, i = .select v) ∧ t.keyValid = false ∧ t.cfgValid = true ∧ Responds t .ok 0) ∨
    (i = .sreset ∧ t.keyValid = false)

/-- R69: no command, no edge and no reset writes a ROM. -/
def Obligations.RomsNeverChange : Prop :=
  ∀ (s t : State) (p : Pins), (step s = .next t ∨ clockEdge p s = .next t) → t.roms = s.roms

/-- R36, R65, R211: no secret reaches the host but through ENCRYPT and DECRYPT.  Two good states that the
host cannot tell apart, whatever their KEYBUF, INBUF, RK, WIN, X, Y and CFG_Z, answer every command
alike, and stay alike but for OUTBUF after ENCRYPT or DECRYPT. -/
def Obligations.SecretsReachTheHostOnlyThroughTheCipher : Prop :=
  ∀ (i : Instr) (s t : State), Inv s → Inv t → s.roms = t.roms → SameToHost s t →
    ∃ s' t', exec i s = .next s' ∧ exec i t = .next t' ∧ s'.rspPending = t'.rspPending ∧
      (((∀ n, i ≠ .encrypt n) ∧ (∀ n, i ≠ .decrypt n)) → SameToHost s' t') ∧
      SameToHost { s' with outbuf := t'.outbuf } t'

/-- R263: what a block just out of reset answers: the commands that succeed, and READ at every address; and
EXPAND, ENCRYPT and DECRYPT fail with INVALID_VARIANT for as long as CFG_VALID is 0, whatever else has
run since. -/
def Obligations.ResetBlockAnswers : Prop :=
  (∀ (s : State) (len : BitVec 6) (i : Instr), s.cfgValid = false →
    i = .expand len ∨ i = .encrypt len ∨ i = .decrypt len →
    ∃ t, exec i s = .next t ∧ Responds t .invalidVariant 0) ∧
  ∀ s : State, AfterReset s →
    (∀ i, i = .nop ∨ i = .clrerr ∨ i = .sreset ∨ (∃ k d, i = .wkey k d) ∨ (∃ k d, i = .win k d) →
      ∃ t, exec i s = .next t ∧ Responds t .ok 0) ∧
    (∀ vidx, checkDescriptor (romDescriptor s.roms vidx) = .ok →
      ∃ t, exec (.select vidx) s = .next t ∧ Responds t .ok 0) ∧
    (∀ addr, ∃ t, exec (.read addr) s = .next t ∧
      Responds t .ok (if addr = 0x1A#8 then 0x53#8 else if addr = 0x1B#8 then 0x01#8 else 0x00#8))

/-- R67: READ, WKEY, WIN, ENCRYPT and DECRYPT are idempotent: the same command again leaves the same
state. -/
def Obligations.RepeatedCommandsLeaveTheSameState : Prop :=
  ∀ (i : Instr) (s t : State),
    (∃ a, i = .read a) ∨ (∃ k d, i = .wkey k d) ∨ (∃ k d, i = .win k d) ∨
      (∃ n, i = .encrypt n) ∨ (∃ n, i = .decrypt n) →
    exec i s = .next t → exec i t = .next t

-- Invariants

/-- The reset state is good. -/
def Obligations.ResetIsGood : Prop := Inv State.reset ∧ KeyScheduled State.reset

/-- Every step of a good state leaves a good state, whatever waits at the pins and whatever the ROMs
hold. -/
def Obligations.StepKeepsTheInvariant : Prop :=
  ∀ s t : State, Inv s → step s = .next t → Inv t

/-- Every rising edge of a good state leaves a good state, whatever the pins carry. -/
def Obligations.ClockEdgeKeepsTheInvariant : Prop :=
  ∀ (s t : State) (p : Pins), Inv s → clockEdge p s = .next t → Inv t

/-- R24: KEY_VALID = 1 means that RK[0..T-1] is the complete schedule of some key under the current CFG, and
every step keeps that. -/
def Obligations.StepKeepsTheScheduleComplete : Prop :=
  ∀ s t : State, KeyScheduled s → step s = .next t → KeyScheduled t

/-- R232: from a good state no step and no edge stops: no fault and no refusal. -/
def Obligations.StepNeverStops : Prop :=
  ∀ (s : State) (p : Pins), Inv s → (∃ t, step s = .next t) ∧ (∃ t, clockEdge p s = .next t)

-- The block at its pins

/-- R16, R170, R206, R268, R270: the edges of an accepted command, as many as its latency, whatever the
command port carries meanwhile, add up to its transaction.  The latency is R270's: for an EXPAND that
succeeds T with SPECK and 1 + (T - m) with SIMON, for an ENCRYPT or DECRYPT that succeeds T + 2, and 1
for every other word, the failing commands and the illegal words among them. -/
def Obligations.EdgesAddUpToTheTransaction : Prop :=
  ∀ (s : State) (c : CmdWord), s.seq = .idle → (s.cfgValid = true → s.cfg.Legal) →
    wordLatency c s =
      (match decode c with
      | .command (.expand len) =>
        if s.cfgValid = true ∧ len.toNat = s.cfg.kwords.toNat * ((s.cfg.wbits.toNat + 7) / 8) then
          if s.cfg.family = .speck then s.cfg.rounds.toNat
          else 1 + (s.cfg.rounds.toNat - s.cfg.kwords.toNat)
        else 1
      | .command (.encrypt len) | .command (.decrypt len) =>
        if s.cfgValid = true ∧ len.toNat = 2 * ((s.cfg.wbits.toNat + 7) / 8) ∧
            s.keyValid = true then
          s.cfg.rounds.toNat + 2
        else 1
      | _ => 1) ∧
    ∀ ps : List Pins, (∀ p ∈ ps, p.rst = false) → ps.length + 1 = wordLatency c s →
      clockEdges (⟨false, true, c⟩ :: ps) s = runWord c s

/-- R268, R270: before the last edge of its latency (whose cycles `EdgesAddUpToTheTransaction` states) the
command is still in progress, and no response is driven. -/
def Obligations.NoResponseBeforeTheLatency : Prop :=
  ∀ (s : State) (c : CmdWord) (ps : List Pins), s.seq = .idle →
    (s.cfgValid = true → s.cfg.Legal) → (∀ p ∈ ps, p.rst = false) →
    ps.length + 1 < wordLatency c s →
    ∃ t, clockEdges (⟨false, true, c⟩ :: ps) s = .next t ∧ busy t = true ∧ rspValid t = false ∧
      cmdReady false t = false

-- The text of a command program

/-- R91, R92: a line of text, one mnemonic and its operands separated by commas, each number decimal or
hexadecimal with `0x`, is read as the source line it names (whose words and ranges
`AssemblerAgreesWithTheEncoder` states).  That WKEYS, WINS and LOADKEY with no byte are refused as text is
the model's choice (DESIGN CHOICE, log entry 9). -/
def Obligations.TextLinesAreReadAsSourceLines : Prop :=
  assembleText "NOP".toList = assemble .nop ∧
  assembleText "CLRERR".toList = assemble .clrerr ∧
  assembleText "SRESET".toList = assemble .sreset ∧
  assembleText "STATUS".toList = assemble .status ∧
  (∀ (t : List Char) (a : Nat), NumberText t a →
    assembleText ("SELECT ".toList ++ t) = assemble (.select a) ∧
    assembleText ("EXPAND ".toList ++ t) = assemble (.expand a) ∧
    assembleText ("ENCRYPT ".toList ++ t) = assemble (.encrypt a) ∧
    assembleText ("DECRYPT ".toList ++ t) = assemble (.decrypt a) ∧
    assembleText ("READ ".toList ++ t) = assemble (.read a) ∧
    assembleText (".word ".toList ++ t) = assemble (.word a) ∧
    assembleText ("READOUT ".toList ++ t) = assemble (.readout a)) ∧
  (∀ (t u : List Char) (a b : Nat), NumberText t a → NumberText u b →
    assembleText ("WKEY ".toList ++ t ++ ", ".toList ++ u) = assemble (.wkey a b) ∧
    assembleText ("WIN ".toList ++ t ++ ", ".toList ++ u) = assemble (.win a b)) ∧
  (∀ (ts : List (List Char)) (bytes : List Nat), ts ≠ [] → List.Forall₂ NumberText ts bytes →
    assembleText ("WKEYS ".toList ++ ", ".toList.intercalate ts) = assemble (.wkeys bytes) ∧
    assembleText ("WINS ".toList ++ ", ".toList.intercalate ts) = assemble (.wins bytes) ∧
    assembleText ("LOADKEY ".toList ++ ", ".toList.intercalate ts) = assemble (.loadkey bytes)) ∧
  assembleText "WKEYS".toList = none ∧ assembleText "WINS".toList = none ∧
  assembleText "LOADKEY".toList = none
end

