-- ==== Sys2Proof/Laws/Arith.lean ====
section
/-! SUPPORT. Laws/Arith.lean: what each word operator gives, bit by bit or as a number. -/

namespace Sys2Proof.Machine

theorem wordWidths_le {w : Nat} (hw : w ∈ wordWidths) : 16 ≤ w ∧ w ≤ 64 := by
  simp only [wordWidths, List.mem_cons, List.not_mem_nil, or_false] at hw
  omega

@[simp] theorem getLsbD_maskW (w j : Nat) :
    (maskW w).getLsbD j = (decide (j < w) && decide (j < 64)) := by
  simp only [maskW, BitVec.getLsbD_ofNat, Nat.one_shiftLeft, Nat.testBit_two_pow_sub_one]
  exact Bool.and_comm _ _

theorem toNat_maskW {w : Nat} (hw : w ≤ 64) : (maskW w).toNat = 2 ^ w - 1 := by
  have h : 2 ^ w ≤ 2 ^ 64 := Nat.pow_le_pow_right (by omega) hw
  simp only [maskW, BitVec.toNat_ofNat, Nat.one_shiftLeft]
  exact Nat.mod_eq_of_lt (by have := Nat.two_pow_pos w; omega)

/-- Masking narrows a number to its low w bits. -/
theorem toNat_and_maskW {w : Nat} (hw : w ≤ 64) (v : Word) :
    (v &&& maskW w).toNat = v.toNat % 2 ^ w := by
  rw [BitVec.toNat_and, toNat_maskW hw, Nat.and_two_pow_sub_one_eq_mod]

theorem isWord_and_maskW {w : Nat} (hw : w ≤ 64) (v : Word) : IsWord w (v &&& maskW w) := by
  rw [IsWord, toNat_and_maskW hw]
  exact Nat.mod_lt _ (Nat.two_pow_pos w)

/-- A w-word has no bit at or above w. -/
theorem IsWord.getLsbD_eq_false {w : Nat} {v : Word} (hv : IsWord w v) {j : Nat} (hj : w ≤ j) :
    v.getLsbD j = false := by
  rw [← BitVec.testBit_toNat]
  exact Nat.testBit_lt_two_pow (Nat.lt_of_lt_of_le hv (Nat.pow_le_pow_right (by omega) hj))

theorem isWord_of_bits {w : Nat} {v : Word} (h : ∀ j, w ≤ j → v.getLsbD j = false) :
    IsWord w v := by
  refine Nat.lt_pow_two_of_testBit _ fun j hj => ?_
  rw [BitVec.testBit_toNat]
  exact h j hj

/-- Masking leaves a w-word as it is. -/
theorem IsWord.and_maskW {w : Nat} {v : Word} (hv : IsWord w v) : v &&& maskW w = v := by
  apply BitVec.eq_of_getLsbD_eq
  intro j hj
  rw [BitVec.getLsbD_and, getLsbD_maskW]
  by_cases h : j < w
  · simp [h, hj]
  · simp [hv.getLsbD_eq_false (Nat.le_of_not_lt h)]

theorem IsWord.rolW {w : Nat} (hw : w ≤ 64) {v : Word} (hv : IsWord w v) (r : Nat) :
    IsWord w (rolW w v r) := by
  unfold Machine.rolW
  split
  · exact hv
  · exact isWord_and_maskW hw _

theorem IsWord.rorW {w : Nat} (hw : w ≤ 64) {v : Word} (hv : IsWord w v) (r : Nat) :
    IsWord w (rorW w v r) := by
  unfold Machine.rorW
  split
  · exact hv
  · exact isWord_and_maskW hw _

theorem isWord_addW {w : Nat} (hw : w ≤ 64) (a b : Word) : IsWord w (addW w a b) :=
  isWord_and_maskW hw _

theorem isWord_subW {w : Nat} (hw : w ≤ 64) (a b : Word) : IsWord w (subW w a b) :=
  isWord_and_maskW hw _

theorem isWord_xorW {w : Nat} (hw : w ≤ 64) (a b : Word) : IsWord w (xorW w a b) :=
  isWord_and_maskW hw _

theorem isWord_andW {w : Nat} (hw : w ≤ 64) (a b : Word) : IsWord w (andW w a b) :=
  isWord_and_maskW hw _

theorem getLsbD_xorW (w : Nat) (a b : Word) (j : Nat) :
    (xorW w a b).getLsbD j = ((a.getLsbD j ^^ b.getLsbD j) && decide (j < w)) := by
  rw [xorW, BitVec.getLsbD_and, BitVec.getLsbD_xor, getLsbD_maskW]
  by_cases h : j < 64
  · simp [h]
  · simp [BitVec.getLsbD_of_ge _ _ (Nat.le_of_not_lt h)]

theorem getLsbD_andW {w : Nat} (hw : w ≤ 64) (a b : Word) (j : Nat) :
    (andW w a b).getLsbD j = (decide (j < w) && (a.getLsbD j && b.getLsbD j)) := by
  rw [andW, BitVec.getLsbD_and, BitVec.getLsbD_and, getLsbD_maskW, Bool.and_comm]
  by_cases h : j < w
  · simp only [h, Nat.lt_of_lt_of_le h hw, decide_true, Bool.true_and]
  · simp only [h, decide_false, Bool.false_and]

/-- On w-words the mask of `xor_w` changes nothing. -/
theorem xorW_eq {w : Nat} {a b : Word} (ha : IsWord w a) (hb : IsWord w b) :
    xorW w a b = a ^^^ b := by
  apply BitVec.eq_of_getLsbD_eq
  intro j _
  rw [getLsbD_xorW, BitVec.getLsbD_xor]
  by_cases h : j < w
  · simp [h]
  · simp [ha.getLsbD_eq_false (Nat.le_of_not_lt h), hb.getLsbD_eq_false (Nat.le_of_not_lt h)]

/-- `xor_w` with the same word twice gives the word back (R110). -/
theorem xorW_xorW_cancel {w : Nat} {a b : Word} (ha : IsWord w a) :
    xorW w (xorW w a b) b = a := by
  apply BitVec.eq_of_getLsbD_eq
  intro j _
  rw [getLsbD_xorW, getLsbD_xorW]
  by_cases h : j < w
  · simp [h]
  · simp [h, ha.getLsbD_eq_false (Nat.le_of_not_lt h)]

theorem toNat_addW {w : Nat} (hw : w ≤ 64) (a b : Word) :
    (addW w a b).toNat = (a.toNat + b.toNat) % 2 ^ w := by
  rw [addW, toNat_and_maskW hw, BitVec.toNat_add]
  exact Nat.mod_mod_of_dvd _ (Nat.pow_dvd_pow 2 hw)

theorem toNat_subW {w : Nat} (hw : w ≤ 64) {a b : Word} (hb : IsWord w b) :
    (subW w a b).toNat = (a.toNat + 2 ^ w - b.toNat) % 2 ^ w := by
  have hb' : b.toNat < 2 ^ w := hb
  have h64 : (2 : Nat) ^ 64 = 2 ^ w * 2 ^ (64 - w) := by rw [← pow_add]; congr 1; omega
  have hpos : 1 ≤ 2 ^ (64 - w) := Nat.one_le_two_pow
  rw [subW, toNat_and_maskW hw, BitVec.toNat_sub, Nat.mod_mod_of_dvd _ (Nat.pow_dvd_pow 2 hw), h64]
  obtain ⟨q, hq⟩ : ∃ q, 2 ^ (64 - w) = q + 1 := ⟨2 ^ (64 - w) - 1, by omega⟩
  rw [hq, show 2 ^ w * (q + 1) - b.toNat + a.toNat
      = a.toNat + 2 ^ w - b.toNat + 2 ^ w * q by rw [Nat.mul_add]; omega,
    Nat.add_mul_mod_self_left]

/-- `sub_w` undoes `add_w` (R110). -/
theorem subW_addW_cancel {w : Nat} (hw : w ≤ 64) {a b : Word} (ha : IsWord w a)
    (hb : IsWord w b) : subW w (addW w a b) b = a := by
  apply BitVec.eq_of_toNat_eq
  rw [toNat_subW hw hb, toNat_addW hw]
  have ha' : a.toNat < 2 ^ w := ha
  have hb' : b.toNat < 2 ^ w := hb
  rcases Nat.lt_or_ge (a.toNat + b.toNat) (2 ^ w) with h | h
  · rw [Nat.mod_eq_of_lt h, show a.toNat + b.toNat + 2 ^ w - b.toNat = a.toNat + 2 ^ w by omega,
      Nat.add_mod_right, Nat.mod_eq_of_lt ha']
  · rw [Nat.mod_eq_sub_mod h, Nat.mod_eq_of_lt (by omega : a.toNat + b.toNat - 2 ^ w < 2 ^ w),
      show a.toNat + b.toNat - 2 ^ w + 2 ^ w - b.toNat = a.toNat by omega, Nat.mod_eq_of_lt ha']

/-- `add_w` undoes `sub_w` (R105). -/
theorem addW_subW_cancel {w : Nat} (hw : w ≤ 64) {a b : Word} (ha : IsWord w a)
    (hb : IsWord w b) : addW w (subW w a b) b = a := by
  apply BitVec.eq_of_toNat_eq
  rw [toNat_addW hw, toNat_subW hw hb]
  have ha' : a.toNat < 2 ^ w := ha
  have hb' : b.toNat < 2 ^ w := hb
  rw [Nat.mod_add_mod, show a.toNat + 2 ^ w - b.toNat + b.toNat = a.toNat + 2 ^ w by omega,
    Nat.add_mod_right, Nat.mod_eq_of_lt ha']

/-- Bit `j` of a left rotation (R102). -/
theorem getLsbD_rolW {w : Nat} (hw : w ≤ 64) {v : Word} (hv : IsWord w v) {r : Nat}
    (hr : r ≤ w) (j : Nat) :
    (rolW w v r).getLsbD j = (decide (j < w) && v.getLsbD ((j + w - r) % w)) := by
  unfold rolW
  by_cases hj : j < w
  · split
    · next h =>
      rcases h with rfl | rfl
      · rw [show j + w - 0 = j + w by omega, Nat.add_mod_right, Nat.mod_eq_of_lt hj]; simp [hj]
      · rw [show j + r - r = j by omega, Nat.mod_eq_of_lt hj]; simp [hj]
    · next h =>
      simp only [BitVec.getLsbD_and, BitVec.getLsbD_or, BitVec.getLsbD_shiftLeft,
        BitVec.getLsbD_ushiftRight, getLsbD_maskW]
      by_cases hjr : j < r
      · rw [Nat.mod_eq_of_lt (by omega : j + w - r < w), show w - r + j = j + w - r by omega]
        simp [hjr, hj, show j < 64 by omega]
      · rw [hv.getLsbD_eq_false (by omega : w ≤ w - r + j),
          show j + w - r = j - r + w by omega, Nat.add_mod_right,
          Nat.mod_eq_of_lt (by omega : j - r < w)]
        simp [hjr, hj, show j < 64 by omega]
  · split
    · simp [hj, hv.getLsbD_eq_false (Nat.le_of_not_lt hj)]
    · simp [hj]

/-- Bit `j` of a right rotation (R103). -/
theorem getLsbD_rorW {w : Nat} (hw : w ≤ 64) {v : Word} (hv : IsWord w v) {r : Nat}
    (hr : r ≤ w) (j : Nat) :
    (rorW w v r).getLsbD j = (decide (j < w) && v.getLsbD ((j + r) % w)) := by
  unfold rorW
  by_cases hj : j < w
  · split
    · next h =>
      rcases h with rfl | rfl
      · rw [Nat.add_zero, Nat.mod_eq_of_lt hj]; simp [hj]
      · rw [Nat.add_mod_right, Nat.mod_eq_of_lt hj]; simp [hj]
    · next h =>
      simp only [BitVec.getLsbD_and, BitVec.getLsbD_or, BitVec.getLsbD_shiftLeft,
        BitVec.getLsbD_ushiftRight, getLsbD_maskW]
      by_cases hjr : j + r < w
      · rw [Nat.mod_eq_of_lt hjr, show r + j = j + r by omega]
        simp [hj, show j < 64 by omega, show j < w - r by omega]
      · rw [hv.getLsbD_eq_false (by omega : w ≤ r + j),
          show j + r = j - (w - r) + w by omega, Nat.add_mod_right,
          Nat.mod_eq_of_lt (by omega : j - (w - r) < w)]
        simp [hj, show j < 64 by omega, show ¬ j < w - r by omega]
  · split
    · simp [hj, hv.getLsbD_eq_false (Nat.le_of_not_lt hj)]
    · simp [hj]

/-- A left rotation undoes a right rotation by the same amount (R111). -/
theorem rolW_rorW_cancel {w : Nat} (hw : w ≤ 64) {v : Word} (hv : IsWord w v) {r : Nat}
    (hr : r ≤ w) : rolW w (rorW w v r) r = v := by
  apply BitVec.eq_of_getLsbD_eq
  intro j _
  rw [getLsbD_rolW hw (hv.rorW hw r) hr, getLsbD_rorW hw hv hr]
  by_cases hj : j < w
  · have hpos : 0 < w := by omega
    rw [Nat.mod_add_mod, show j + w - r + r = j + w by omega, Nat.add_mod_right,
      Nat.mod_eq_of_lt hj]
    simp [hj, Nat.mod_lt _ hpos]
  · simp [hj, hv.getLsbD_eq_false (Nat.le_of_not_lt hj)]

/-- A right rotation undoes a left rotation by the same amount (R111). -/
theorem rorW_rolW_cancel {w : Nat} (hw : w ≤ 64) {v : Word} (hv : IsWord w v) {r : Nat}
    (hr : r ≤ w) : rorW w (rolW w v r) r = v := by
  apply BitVec.eq_of_getLsbD_eq
  intro j _
  rw [getLsbD_rorW hw (hv.rolW hw r) hr, getLsbD_rolW hw hv hr]
  by_cases hj : j < w
  · have hpos : 0 < w := by omega
    have hlt := Nat.mod_lt (j + r) hpos
    have : ((j + r) % w + w - r) % w = j := by
      rcases Nat.lt_or_ge (j + r) w with h | h
      · rw [Nat.mod_eq_of_lt h, show j + r + w - r = j + w by omega, Nat.add_mod_right,
          Nat.mod_eq_of_lt hj]
      · rcases Nat.lt_or_ge (j + r - w) w with h' | h'
        · rw [Nat.mod_eq_sub_mod h, Nat.mod_eq_of_lt h',
            show j + r - w + w - r = j by omega, Nat.mod_eq_of_lt hj]
        · omega
    rw [this]
    simp [hj, hlt]
  · simp [hj, hv.getLsbD_eq_false (Nat.le_of_not_lt hj)]

end Sys2Proof.Machine
end

