-- ==== Sys2Proof/Laws/Assembler.lean ====
section
/-! SUPPORT. Laws/Assembler.lean: the assembler's words for each list it expands, and how it reads a line of
text (R91, R92). -/

namespace Sys2Proof

/-- A list of lines whose words are known assembles to those words. -/
theorem mapM_words {α : Type} (line : α → SourceCommand) (word : α → Nat)
    (h : ∀ a, (line a).value = some (word a)) (l : List α) :
    (l.map line).mapM (fun c => c.value.map (BitVec.ofNat 32)) =
      some (l.map fun a => BitVec.ofNat 32 (word a)) := by
  induction l with
  | nil => rfl
  | cons a l ih => simp [h, ih]

/-- The range check on a byte list (R91). -/
theorem allBytes_iff (bytes : List Nat) : allBytes bytes = true ↔ ∀ b ∈ bytes, b ≤ 255 := by
  simp [allBytes]

-- Numbers

theorem digitValue_digitChar (d : Fin 16) : digitValue (Nat.digitChar d.val) = some d.val := by
  revert d; decide

/-- Digits of a base up to 16 are read at their value. -/
theorem digitsValue_digits {base : Nat} (hb : base ≤ 16) (ds : List (Fin base)) (acc : Nat) :
    digitsValue base acc (ds.map fun d => Nat.digitChar d.val) =
      some (ds.foldl (fun acc d => acc * base + d.val) acc) := by
  induction ds generalizing acc with
  | nil => rfl
  | cons d ds ih =>
    have h := digitValue_digitChar ⟨d.val, Nat.lt_of_lt_of_le d.isLt hb⟩
    simp only [List.map_cons, digitsValue, h, d.isLt, if_true, ih, List.foldl_cons]

theorem digitChar_plain (d : Fin 16) :
    Nat.digitChar d.val ≠ ' ' ∧ Nat.digitChar d.val ≠ ',' ∧ Nat.digitChar d.val ≠ 'x' := by
  revert d; decide

/-- A number's text is read as the number. -/
theorem parseNumber_of_numberText {t : List Char} {n : Nat} (h : NumberText t n) :
    parseNumber t = some n := by
  obtain ⟨ds, hne, rfl, rfl⟩ | ⟨ds, hne, rfl, rfl⟩ := h
  · rw [← digitsValue_digits (by decide)]
    match ds, hne with
    | [d], _ => simp only [List.map_cons, List.map_nil]; unfold parseNumber; split <;> simp_all
    | d :: e :: ds, _ =>
      have hx := (digitChar_plain ⟨e.val, by omega⟩).2.2
      simp only [List.map_cons]
      unfold parseNumber
      split
      · next h => simp only [List.cons.injEq] at h; exact absurd h.2.1 hx
      · next h => rw [h]
      · next h => cases h
  · rw [← digitsValue_digits (by decide)]
    match ds, hne with
    | d :: ds, _ => rfl

/-- A number's text is not empty and holds neither a space nor a comma. -/
theorem numberText_plain {t : List Char} {n : Nat} (h : NumberText t n) :
    t ≠ [] ∧ ∀ ch ∈ t, ch ≠ ' ' ∧ ch ≠ ',' := by
  obtain ⟨ds, hne, rfl, -⟩ | ⟨ds, -, rfl, -⟩ := h
  · refine ⟨by simpa using hne, fun ch hch => ?_⟩
    obtain ⟨d, -, rfl⟩ := List.mem_map.mp hch
    have := digitChar_plain ⟨d.val, by omega⟩
    exact ⟨this.1, this.2.1⟩
  · refine ⟨List.cons_ne_nil _ _, fun ch hch => ?_⟩
    simp only [List.mem_cons, List.mem_map] at hch
    obtain rfl | rfl | ⟨d, -, rfl⟩ := hch
    · decide
    · decide
    · exact ⟨(digitChar_plain d).1, (digitChar_plain d).2.1⟩

-- Operand lists

/-- A piece with no separator stays whole at the head. -/
theorem cutAt_append {sep : Char} {t : List Char} (h : ∀ ch ∈ t, ch ≠ sep) (rest : List Char) :
    cutAt sep (t ++ sep :: rest) = t :: cutAt sep rest := by
  induction t with
  | nil => simp [cutAt]
  | cons ch t ih =>
    rw [List.cons_append, cutAt, if_neg (h ch (by simp)), ih fun c hc => h c (by simp [hc])]

theorem cutAt_plain {sep : Char} {t : List Char} (h : ∀ ch ∈ t, ch ≠ sep) : cutAt sep t = [t] := by
  induction t with
  | nil => rfl
  | cons ch t ih =>
    rw [cutAt, if_neg (h ch (by simp)), ih fun c hc => h c (by simp [hc])]

theorem filter_plain {t : List Char} (h : ∀ ch ∈ t, ch ≠ ' ' ∧ ch ≠ ',') :
    t.filter (· ≠ ' ') = t := by
  rw [List.filter_eq_self]
  intro ch hch
  simpa using (h ch hch).1

/-- Number texts separated by a comma and a space are read as their numbers. -/
theorem cutAt_intercalate {ts : List (List Char)} {ns : List Nat} (hne : ts ≠ [])
    (h : List.Forall₂ NumberText ts ns) :
    (cutAt ',' ((", ".toList.intercalate ts).filter (· ≠ ' '))).mapM parseNumber = some ns := by
  induction h with
  | nil => exact absurd rfl hne
  | @cons t n ts ns ht hts ih =>
    have hp := (numberText_plain ht).2
    cases hts with
    | nil =>
      have e : ", ".toList.intercalate [t] = t := by simp [List.intercalate]
      rw [e, filter_plain hp, cutAt_plain fun c hc => (hp c hc).2, List.mapM_cons,
        parseNumber_of_numberText ht]
      rfl
    | @cons u m ts ns hu hts =>
      have e : ", ".toList.intercalate (t :: u :: ts) =
          t ++ ',' :: ' ' :: ", ".toList.intercalate (u :: ts) := by
        simp [List.intercalate, List.intersperse]
      rw [e, List.filter_append, filter_plain hp, List.filter_cons_of_pos (by decide),
        List.filter_cons_of_neg (by decide), cutAt_append fun c hc => (hp c hc).2]
      rw [List.mapM_cons, parseNumber_of_numberText ht, ih (List.cons_ne_nil _ _)]
      rfl

/-- The operand text of a non-empty list of numbers. -/
theorem parseOperands_intercalate {ts : List (List Char)} {ns : List Nat} (hne : ts ≠ [])
    (h : List.Forall₂ NumberText ts ns) :
    parseOperands (", ".toList.intercalate ts) = some ns := by
  have hc := cutAt_intercalate hne h
  unfold parseOperands
  split
  · next he =>
    rw [he] at hc
    simp [cutAt, parseNumber] at hc
  · next he => rw [← he, hc]

/-- One number as the operand text. -/
theorem parseOperands_one {t : List Char} {a : Nat} (h : NumberText t a) :
    parseOperands t = some [a] := by
  have := parseOperands_intercalate (List.cons_ne_nil t []) (.cons h .nil)
  simpa [List.intercalate] using this

/-- Two numbers as the operand text. -/
theorem parseOperands_two {t u : List Char} {a b : Nat} (h : NumberText t a) (h' : NumberText u b) :
    parseOperands (t ++ ", ".toList ++ u) = some [a, b] := by
  have := parseOperands_intercalate (List.cons_ne_nil t [u]) (.cons h (.cons h' .nil))
  simpa [List.intercalate, List.intersperse] using this

/-- A line whose mnemonic and operand text are read is the source line they name. -/
theorem assembleText_of {text operandText : List Char} {mnemonic : List Char} {operands : List Nat}
    {line : SourceCommand} (hcut : cutMnemonic text = (mnemonic, operandText))
    (hops : parseOperands operandText = some operands)
    (hline : sourceOf (String.ofList mnemonic) operands = some line) :
    assembleText text = assemble line := by
  simp only [assembleText, parseLine, hcut, hops, hline]

end Sys2Proof
end

