-- ==== Sys2Proof/Laws/Decode.lean ====
section
/-! SUPPORT. Laws/Decode.lean: the fields of an encoded command, and that every command is well formed. -/

namespace Sys2Proof.Laws

/-- Every command is well formed: an operand of a field's width is in the field's range (R91). -/
theorem instr_wellFormed (i : Instr) : i.wellFormed = true := by
  cases i with
  | nop => rfl
  | select v => have := v.isLt; simp [Instr.wellFormed, Instr.toSource, SourceCommand.wellFormed]; omega
  | wkey k d =>
    have := k.isLt; have := d.isLt
    simp [Instr.wellFormed, Instr.toSource, SourceCommand.wellFormed]; omega
  | win k d =>
    have := k.isLt; have := d.isLt
    simp [Instr.wellFormed, Instr.toSource, SourceCommand.wellFormed]; omega
  | expand n => have := n.isLt; simp [Instr.wellFormed, Instr.toSource, SourceCommand.wellFormed]; omega
  | encrypt n => have := n.isLt; simp [Instr.wellFormed, Instr.toSource, SourceCommand.wellFormed]; omega
  | decrypt n => have := n.isLt; simp [Instr.wellFormed, Instr.toSource, SourceCommand.wellFormed]; omega
  | read a => have := a.isLt; simp [Instr.wellFormed, Instr.toSource, SourceCommand.wellFormed]; omega
  | clrerr => rfl
  | sreset => rfl

/-- The opcode field of a word does not see operand bits below 28. -/
theorem opField_or {n : Nat} (hn : n ≤ 28) (base : CmdWord) (f : BitVec n) :
    opField (base ||| f.setWidth 32) = opField base := by
  apply BitVec.eq_of_getLsbD_eq
  intro j hj
  simp only [opField, BitVec.getLsbD_extractLsb', BitVec.getLsbD_or, BitVec.getLsbD_setWidth,
    BitVec.getLsbD_of_ge f _ (show n ≤ 28 + j by omega), Bool.and_false, Bool.or_false]

/-- The reserved bits from `lo` up do not see operand bits below `lo`. -/
theorem reservedClear_or {n lo : Nat} (hn : n ≤ lo) (base : CmdWord) (f : BitVec n) :
    reservedClear lo (base ||| f.setWidth 32) = reservedClear lo base := by
  have h : (base ||| f.setWidth 32).extractLsb' lo (28 - lo) = base.extractLsb' lo (28 - lo) := by
    apply BitVec.eq_of_getLsbD_eq
    intro j hj
    simp only [BitVec.getLsbD_extractLsb', BitVec.getLsbD_or, BitVec.getLsbD_setWidth,
      BitVec.getLsbD_of_ge f _ (show n ≤ lo + j by omega), Bool.and_false, Bool.or_false]
  rw [reservedClear, h, reservedClear]

/-- An operand in the low bits is read back. -/
theorem extract_or {n : Nat} (hn : n ≤ 32) (base : CmdWord) (hbase : base.extractLsb' 0 n = 0#n)
    (f : BitVec n) : (base ||| f.setWidth 32).extractLsb' 0 n = f := by
  apply BitVec.eq_of_getLsbD_eq
  intro j hj
  have h0 := congrArg (BitVec.getLsbD · j) hbase
  simp only [BitVec.getLsbD_extractLsb', Nat.zero_add, BitVec.getLsbD_zero, hj, decide_true,
    Bool.true_and] at h0
  simp only [BitVec.getLsbD_extractLsb', Nat.zero_add, BitVec.getLsbD_or, BitVec.getLsbD_setWidth,
    hj, decide_true, Bool.true_and, h0, Bool.false_or, show j < 32 by omega]

/-- The two operands of format W as one field (R83). -/
theorem or_fields {n : Nat} (base : CmdWord) (idx : BitVec n) (data : Byte) :
    base ||| idx.setWidth 32 <<< 8 ||| data.setWidth 32 = base ||| (idx ++ data).setWidth 32 := by
  rw [BitVec.or_assoc]
  congr 1
  apply BitVec.eq_of_getLsbD_eq
  intro j hj
  simp only [BitVec.getLsbD_or, BitVec.getLsbD_setWidth, BitVec.getLsbD_append,
    BitVec.getLsbD_shiftLeft, hj, decide_true, Bool.true_and]
  by_cases h : j < 8
  · simp [h]
  · simp [h, show j - 8 < 32 by omega, BitVec.getLsbD_of_ge data _ (show 8 ≤ j by omega)]

/-- The low operand of format W. -/
theorem extract_append_low {n : Nat} (c : CmdWord) (idx : BitVec n) (data : Byte)
    (h : c.extractLsb' 0 (n + 8) = idx ++ data) : c.extractLsb' 0 8 = data := by
  apply BitVec.eq_of_getLsbD_eq
  intro j hj
  have h0 := congrArg (BitVec.getLsbD · j) h
  simp only [BitVec.getLsbD_extractLsb', Nat.zero_add, BitVec.getLsbD_append, hj, decide_true,
    if_true, show j < n + 8 by omega, Bool.true_and] at h0
  simp only [BitVec.getLsbD_extractLsb', Nat.zero_add, hj, decide_true, Bool.true_and, h0]

/-- The high operand of format W. -/
theorem extract_append_high {n : Nat} (c : CmdWord) (idx : BitVec n) (data : Byte)
    (h : c.extractLsb' 0 (n + 8) = idx ++ data) : c.extractLsb' 8 n = idx := by
  apply BitVec.eq_of_getLsbD_eq
  intro j hj
  have h0 := congrArg (BitVec.getLsbD · (8 + j)) h
  simp only [BitVec.getLsbD_extractLsb', Nat.zero_add, BitVec.getLsbD_append, decide_true,
    show 8 + j < n + 8 by omega, show ¬ 8 + j < 8 by omega, if_false, Bool.true_and,
    show 8 + j - 8 = j by omega] at h0
  simp only [BitVec.getLsbD_extractLsb', hj, decide_true, Bool.true_and, h0]

/-- A word with no reserved bit set is its opcode field and its operand bits (R80). -/
theorem rebuild_word {lo : Nat} (hlo : lo ≤ 28) (c : CmdWord) (hr : reservedClear lo c = true) :
    c = (opField c).setWidth 32 <<< 28 ||| (c.extractLsb' 0 lo).setWidth 32 := by
  apply BitVec.eq_of_getLsbD_eq
  intro j hj
  simp only [reservedClear, beq_iff_eq] at hr
  have h0 := congrArg (BitVec.getLsbD · (j - lo)) hr
  simp only [BitVec.getLsbD_extractLsb', BitVec.getLsbD_or, BitVec.getLsbD_setWidth,
    BitVec.getLsbD_shiftLeft, opField, hj, decide_true, Bool.true_and, Nat.zero_add] at h0 ⊢
  by_cases h : j < lo
  · simp [h, show j < 28 by omega]
  · by_cases h28 : j < 28
    · rw [show lo + (j - lo) = j by omega] at h0
      simp only [show j - lo < 28 - lo by omega, decide_true, Bool.true_and] at h0
      rw [h0]
      simp [h, h28]
    · simp [h, h28, show j - 28 < 4 by omega, show 28 + (j - 28) = j by omega,
        show j - 28 < 32 by omega]

/-- A word that matches a row is the row's fixed bits and its own operand bits (R87). -/
theorem rebuild_match {lo : Nat} {mask base : CmdWord} {c : CmdWord}
    (hmask : ∀ j, j < 32 → lo ≤ j → mask.getLsbD j = true) (hbase : base.extractLsb' 0 lo = 0#lo)
    (h : c &&& mask = base) : c = base ||| (c.extractLsb' 0 lo).setWidth 32 := by
  apply BitVec.eq_of_getLsbD_eq
  intro j hj
  simp only [BitVec.getLsbD_or, BitVec.getLsbD_setWidth, BitVec.getLsbD_extractLsb', hj, decide_true,
    Bool.true_and, Nat.zero_add]
  by_cases hlo : j < lo
  · have h0 := congrArg (BitVec.getLsbD · j) hbase
    simp only [BitVec.getLsbD_extractLsb', Nat.zero_add, hlo, decide_true, Bool.true_and,
      BitVec.getLsbD_zero] at h0
    simp [h0, hlo]
  · rw [← h, BitVec.getLsbD_and, hmask j hj (Nat.le_of_not_lt hlo)]
    simp [hlo]

end Sys2Proof.Laws
end

