-- ==== Sys2Proof/Laws/Loops.lean ====
section
/-! SUPPORT. Laws/Loops.lean: the counted loops of the rules' pseudocode. -/

namespace Sys2Proof.Machine

variable {α : Type}

@[simp] theorem forUp_zero (f : Nat → α → α) (a : α) : forUp f 0 a = a := rfl

theorem forUp_succ (f : Nat → α → α) (n : Nat) (a : α) :
    forUp f (n + 1) a = f n (forUp f n a) := rfl

@[simp] theorem forDown_zero (f : Nat → α → α) (a : α) : forDown f 0 a = a := rfl

theorem forDown_succ (f : Nat → α → α) (n : Nat) (a : α) :
    forDown f (n + 1) a = forDown f n (f n a) := rfl

/-- An upward loop whose first index is taken out. -/
theorem forUp_succ_first (f : Nat → α → α) (n : Nat) (a : α) :
    forUp f (n + 1) a = forUp (fun i => f (i + 1)) n (f 0 a) := by
  induction n with
  | zero => rfl
  | succ n ih => rw [forUp_succ, ih, forUp_succ]

/-- A downward loop is an upward loop on the mirrored index (R185). -/
theorem forDown_eq_forUp (f : Nat → α → α) (n : Nat) (a : α) :
    forDown f n a = forUp (fun j => f (n - 1 - j)) n a := by
  induction n generalizing a with
  | zero => rfl
  | succ n ih =>
    rw [forDown_succ, ih, forUp_succ_first, show n + 1 - 1 - 0 = n by omega]
    congr 1
    funext i
    rw [show n + 1 - 1 - (i + 1) = n - 1 - i by omega]

/-- What holds at the start and is kept by each index holds at the end. -/
theorem forUp_invariant (P : Nat → α → Prop) {f : Nat → α → α} {a : α} {n : Nat} (h0 : P 0 a)
    (hstep : ∀ i b, i < n → P i b → P (i + 1) (f i b)) : P n (forUp f n a) := by
  induction n with
  | zero => exact h0
  | succ n ih =>
    rw [forUp_succ]
    exact hstep n _ (Nat.lt_succ_self n) (ih fun i b hi => hstep i b (by omega))

/-- Two upward loops whose bodies agree on what is reached agree. -/
theorem forUp_congr {f g : Nat → α → α} {n : Nat} (a : α)
    (h : ∀ i, i < n → ∀ b, f i b = g i b) : forUp f n a = forUp g n a := by
  induction n with
  | zero => rfl
  | succ n ih =>
    rw [forUp_succ, forUp_succ, ih fun i hi b => h i (by omega) b, h n (Nat.lt_succ_self n)]

/-- Two upward loops that keep a relation between their values. -/
theorem forUp_related {β : Type} (R : Nat → α → β → Prop) {f : Nat → α → α} {g : Nat → β → β}
    {a : α} {b : β} {n : Nat} (h0 : R 0 a b)
    (hstep : ∀ i x y, i < n → R i x y → R (i + 1) (f i x) (g i y)) :
    R n (forUp f n a) (forUp g n b) := by
  induction n with
  | zero => exact h0
  | succ n ih =>
    rw [forUp_succ, forUp_succ]
    exact hstep n _ _ (Nat.lt_succ_self n) (ih fun i x y hi => hstep i x y (by omega))

/-- A downward loop of inverse steps undoes the upward loop, on a kept set of values. -/
theorem forDown_undoes_forUp (P : α → Prop) {f g : Nat → α → α} {n : Nat} {a : α} (ha : P a)
    (hkeep : ∀ i b, i < n → P b → P (f i b)) (hinv : ∀ i b, i < n → P b → g i (f i b) = b) :
    forDown g n (forUp f n a) = a := by
  induction n with
  | zero => rfl
  | succ n ih =>
    have hP : P (forUp f n a) :=
      forUp_invariant (fun _ => P) ha fun i b hi => hkeep i b (by omega)
    rw [forUp_succ, forDown_succ, hinv n _ (Nat.lt_succ_self n) hP]
    exact ih (fun i b hi => hkeep i b (by omega)) fun i b hi => hinv i b (by omega)

/-- An upward loop of inverse steps undoes the downward loop, on a kept set of values. -/
theorem forUp_undoes_forDown (P : α → Prop) {f g : Nat → α → α} {n : Nat} {a : α} (ha : P a)
    (hkeep : ∀ i b, i < n → P b → P (f i b)) (hinv : ∀ i b, i < n → P b → g i (f i b) = b) :
    forUp g n (forDown f n a) = a := by
  induction n generalizing a with
  | zero => rfl
  | succ n ih =>
    rw [forDown_succ, forUp_succ, ih (hkeep n a (Nat.lt_succ_self n) ha)
      (fun i b hi => hkeep i b (by omega)) fun i b hi => hinv i b (by omega)]
    exact hinv n a (Nat.lt_succ_self n) ha

/-- Stepping a loop on from index `i` (R170, R206): the rest of the loop after `i` indices. -/
theorem forUp_add (f : Nat → α → α) (i n : Nat) (a : α) :
    forUp f (i + n) a = forUp (fun j => f (i + j)) n (forUp f i a) := by
  induction n with
  | zero => rfl
  | succ n ih => rw [← Nat.add_assoc, forUp_succ, ih, forUp_succ]

end Sys2Proof.Machine
end

