-- ==== Sys2Proof/Laws/State.lean ====
section
/-! SUPPORT. Laws/State.lean: what each named update of the state does to each field. -/

namespace Sys2Proof.Machine

@[simp] theorem complete_roms (code : ResultCode) (data : Byte) (s : State) :
    (complete code data s).roms = s.roms := rfl

@[simp] theorem complete_cfgValid (code : ResultCode) (data : Byte) (s : State) :
    (complete code data s).cfgValid = s.cfgValid := rfl

@[simp] theorem complete_cfg (code : ResultCode) (data : Byte) (s : State) :
    (complete code data s).cfg = s.cfg := rfl

@[simp] theorem complete_keyValid (code : ResultCode) (data : Byte) (s : State) :
    (complete code data s).keyValid = s.keyValid := rfl

@[simp] theorem complete_err (code : ResultCode) (data : Byte) (s : State) :
    (complete code data s).err = s.err := rfl

@[simp] theorem complete_errcode (code : ResultCode) (data : Byte) (s : State) :
    (complete code data s).errcode = s.errcode := rfl

@[simp] theorem complete_keybuf (code : ResultCode) (data : Byte) (s : State) :
    (complete code data s).keybuf = s.keybuf := rfl

@[simp] theorem complete_inbuf (code : ResultCode) (data : Byte) (s : State) :
    (complete code data s).inbuf = s.inbuf := rfl

@[simp] theorem complete_outbuf (code : ResultCode) (data : Byte) (s : State) :
    (complete code data s).outbuf = s.outbuf := rfl

@[simp] theorem complete_x (code : ResultCode) (data : Byte) (s : State) :
    (complete code data s).x = s.x := rfl

@[simp] theorem complete_y (code : ResultCode) (data : Byte) (s : State) :
    (complete code data s).y = s.y := rfl

@[simp] theorem complete_win (code : ResultCode) (data : Byte) (s : State) :
    (complete code data s).win = s.win := rfl

@[simp] theorem complete_rk (code : ResultCode) (data : Byte) (s : State) :
    (complete code data s).rk = s.rk := rfl

@[simp] theorem complete_seq (code : ResultCode) (data : Byte) (s : State) :
    (complete code data s).seq = .idle := rfl

@[simp] theorem complete_rc (code : ResultCode) (data : Byte) (s : State) :
    (complete code data s).rc = s.rc := rfl

@[simp] theorem complete_dir (code : ResultCode) (data : Byte) (s : State) :
    (complete code data s).dir = s.dir := rfl

@[simp] theorem complete_rspPending (code : ResultCode) (data : Byte) (s : State) :
    (complete code data s).rspPending = some (responseWord code data) := rfl

@[simp] theorem complete_port (code : ResultCode) (data : Byte) (s : State) :
    (complete code data s).port = s.port := rfl

@[simp] theorem complete_freeDraws (code : ResultCode) (data : Byte) (s : State) :
    (complete code data s).freeDraws = s.freeDraws := rfl

@[simp] theorem recordError_roms (code : ResultCode) (s : State) :
    (recordError code s).roms = s.roms := rfl

@[simp] theorem recordError_cfgValid (code : ResultCode) (s : State) :
    (recordError code s).cfgValid = s.cfgValid := rfl

@[simp] theorem recordError_cfg (code : ResultCode) (s : State) :
    (recordError code s).cfg = s.cfg := rfl

@[simp] theorem recordError_keyValid (code : ResultCode) (s : State) :
    (recordError code s).keyValid = s.keyValid := rfl

@[simp] theorem recordError_err (code : ResultCode) (s : State) :
    (recordError code s).err = true := rfl

@[simp] theorem recordError_errcode (code : ResultCode) (s : State) :
    (recordError code s).errcode = code.toByte := rfl

@[simp] theorem recordError_keybuf (code : ResultCode) (s : State) :
    (recordError code s).keybuf = s.keybuf := rfl

@[simp] theorem recordError_inbuf (code : ResultCode) (s : State) :
    (recordError code s).inbuf = s.inbuf := rfl

@[simp] theorem recordError_outbuf (code : ResultCode) (s : State) :
    (recordError code s).outbuf = s.outbuf := rfl

@[simp] theorem recordError_x (code : ResultCode) (s : State) :
    (recordError code s).x = s.x := rfl

@[simp] theorem recordError_y (code : ResultCode) (s : State) :
    (recordError code s).y = s.y := rfl

@[simp] theorem recordError_win (code : ResultCode) (s : State) :
    (recordError code s).win = s.win := rfl

@[simp] theorem recordError_rk (code : ResultCode) (s : State) :
    (recordError code s).rk = s.rk := rfl

@[simp] theorem recordError_seq (code : ResultCode) (s : State) :
    (recordError code s).seq = s.seq := rfl

@[simp] theorem recordError_rc (code : ResultCode) (s : State) :
    (recordError code s).rc = s.rc := rfl

@[simp] theorem recordError_dir (code : ResultCode) (s : State) :
    (recordError code s).dir = s.dir := rfl

@[simp] theorem recordError_rspPending (code : ResultCode) (s : State) :
    (recordError code s).rspPending = s.rspPending := rfl

@[simp] theorem recordError_port (code : ResultCode) (s : State) :
    (recordError code s).port = s.port := rfl

@[simp] theorem recordError_freeDraws (code : ResultCode) (s : State) :
    (recordError code s).freeDraws = s.freeDraws := rfl

@[simp] theorem resetAll_roms (s : State) :
    (resetAll s).roms = s.roms := rfl

@[simp] theorem resetAll_cfgValid (s : State) :
    (resetAll s).cfgValid = false := rfl

@[simp] theorem resetAll_cfg (s : State) :
    (resetAll s).cfg = Cfg.reset := rfl

@[simp] theorem resetAll_keyValid (s : State) :
    (resetAll s).keyValid = false := rfl

@[simp] theorem resetAll_err (s : State) :
    (resetAll s).err = false := rfl

@[simp] theorem resetAll_errcode (s : State) :
    (resetAll s).errcode = 0 := rfl

@[simp] theorem resetAll_keybuf (s : State) :
    (resetAll s).keybuf = Vector.replicate 32 0 := rfl

@[simp] theorem resetAll_inbuf (s : State) :
    (resetAll s).inbuf = Vector.replicate 16 0 := rfl

@[simp] theorem resetAll_outbuf (s : State) :
    (resetAll s).outbuf = Vector.replicate 16 0 := rfl

@[simp] theorem resetAll_x (s : State) :
    (resetAll s).x = Config.freeWord s.freeDraws 0 := rfl

@[simp] theorem resetAll_y (s : State) :
    (resetAll s).y = Config.freeWord s.freeDraws 1 := rfl

@[simp] theorem resetAll_win (s : State) :
    (resetAll s).win = Vector.ofFn fun i => Config.freeWord s.freeDraws (2 + i.val) := rfl

@[simp] theorem resetAll_rk (s : State) :
    (resetAll s).rk = Vector.ofFn fun j => Config.freeWord s.freeDraws (6 + j.val) := rfl

@[simp] theorem resetAll_seq (s : State) :
    (resetAll s).seq = .idle := rfl

@[simp] theorem resetAll_rc (s : State) :
    (resetAll s).rc = 0 := rfl

@[simp] theorem resetAll_dir (s : State) :
    (resetAll s).dir = .encrypt := rfl

@[simp] theorem resetAll_rspPending (s : State) :
    (resetAll s).rspPending = none := rfl

@[simp] theorem resetAll_port (s : State) :
    (resetAll s).port = s.port := rfl

@[simp] theorem resetAll_freeDraws (s : State) :
    (resetAll s).freeDraws = s.freeDraws + 1 := rfl

@[simp] theorem expandDone_roms (k : Schedule) (n : Nat) (s : State) :
    (expandDone k n s).roms = s.roms := rfl

@[simp] theorem expandDone_cfgValid (k : Schedule) (n : Nat) (s : State) :
    (expandDone k n s).cfgValid = s.cfgValid := rfl

@[simp] theorem expandDone_cfg (k : Schedule) (n : Nat) (s : State) :
    (expandDone k n s).cfg = s.cfg := rfl

@[simp] theorem expandDone_keyValid (k : Schedule) (n : Nat) (s : State) :
    (expandDone k n s).keyValid = true := rfl

@[simp] theorem expandDone_err (k : Schedule) (n : Nat) (s : State) :
    (expandDone k n s).err = s.err := rfl

@[simp] theorem expandDone_errcode (k : Schedule) (n : Nat) (s : State) :
    (expandDone k n s).errcode = s.errcode := rfl

@[simp] theorem expandDone_keybuf (k : Schedule) (n : Nat) (s : State) :
    (expandDone k n s).keybuf = Vector.replicate 32 0 := rfl

@[simp] theorem expandDone_inbuf (k : Schedule) (n : Nat) (s : State) :
    (expandDone k n s).inbuf = s.inbuf := rfl

@[simp] theorem expandDone_outbuf (k : Schedule) (n : Nat) (s : State) :
    (expandDone k n s).outbuf = s.outbuf := rfl

@[simp] theorem expandDone_x (k : Schedule) (n : Nat) (s : State) :
    (expandDone k n s).x = s.x := rfl

@[simp] theorem expandDone_y (k : Schedule) (n : Nat) (s : State) :
    (expandDone k n s).y = s.y := rfl

@[simp] theorem expandDone_win (k : Schedule) (n : Nat) (s : State) :
    (expandDone k n s).win = k.win := rfl

@[simp] theorem expandDone_rk (k : Schedule) (n : Nat) (s : State) :
    (expandDone k n s).rk = k.rk := rfl

@[simp] theorem expandDone_seq (k : Schedule) (n : Nat) (s : State) :
    (expandDone k n s).seq = .idle := rfl

@[simp] theorem expandDone_rc (k : Schedule) (n : Nat) (s : State) :
    (expandDone k n s).rc = BitVec.ofNat 7 n := rfl

@[simp] theorem expandDone_dir (k : Schedule) (n : Nat) (s : State) :
    (expandDone k n s).dir = s.dir := rfl

@[simp] theorem expandDone_rspPending (k : Schedule) (n : Nat) (s : State) :
    (expandDone k n s).rspPending = some (responseWord .ok 0) := rfl

@[simp] theorem expandDone_port (k : Schedule) (n : Nat) (s : State) :
    (expandDone k n s).port = s.port := rfl

@[simp] theorem expandDone_freeDraws (k : Schedule) (n : Nat) (s : State) :
    (expandDone k n s).freeDraws = s.freeDraws := rfl

@[simp] theorem cipherDone_roms (d : Dir) (h : Halves) (s : State) :
    (cipherDone d h s).roms = s.roms := rfl

@[simp] theorem cipherDone_cfgValid (d : Dir) (h : Halves) (s : State) :
    (cipherDone d h s).cfgValid = s.cfgValid := rfl

@[simp] theorem cipherDone_cfg (d : Dir) (h : Halves) (s : State) :
    (cipherDone d h s).cfg = s.cfg := rfl

@[simp] theorem cipherDone_keyValid (d : Dir) (h : Halves) (s : State) :
    (cipherDone d h s).keyValid = s.keyValid := rfl

@[simp] theorem cipherDone_err (d : Dir) (h : Halves) (s : State) :
    (cipherDone d h s).err = s.err := rfl

@[simp] theorem cipherDone_errcode (d : Dir) (h : Halves) (s : State) :
    (cipherDone d h s).errcode = s.errcode := rfl

@[simp] theorem cipherDone_keybuf (d : Dir) (h : Halves) (s : State) :
    (cipherDone d h s).keybuf = s.keybuf := rfl

@[simp] theorem cipherDone_inbuf (d : Dir) (h : Halves) (s : State) :
    (cipherDone d h s).inbuf = s.inbuf := rfl

@[simp] theorem cipherDone_outbuf (d : Dir) (h : Halves) (s : State) :
    (cipherDone d h s).outbuf = packHalves s.cfg h s.outbuf := rfl

@[simp] theorem cipherDone_x (d : Dir) (h : Halves) (s : State) :
    (cipherDone d h s).x = h.x := rfl

@[simp] theorem cipherDone_y (d : Dir) (h : Halves) (s : State) :
    (cipherDone d h s).y = h.y := rfl

@[simp] theorem cipherDone_win (d : Dir) (h : Halves) (s : State) :
    (cipherDone d h s).win = s.win := rfl

@[simp] theorem cipherDone_rk (d : Dir) (h : Halves) (s : State) :
    (cipherDone d h s).rk = s.rk := rfl

@[simp] theorem cipherDone_seq (d : Dir) (h : Halves) (s : State) :
    (cipherDone d h s).seq = .idle := rfl

@[simp] theorem cipherDone_rc (d : Dir) (h : Halves) (s : State) :
    (cipherDone d h s).rc = BitVec.ofNat 7 s.cfg.T := rfl

@[simp] theorem cipherDone_dir (d : Dir) (h : Halves) (s : State) :
    (cipherDone d h s).dir = d := rfl

@[simp] theorem cipherDone_rspPending (d : Dir) (h : Halves) (s : State) :
    (cipherDone d h s).rspPending = some (responseWord .ok 0) := rfl

@[simp] theorem cipherDone_port (d : Dir) (h : Halves) (s : State) :
    (cipherDone d h s).port = s.port := rfl

@[simp] theorem cipherDone_freeDraws (d : Dir) (h : Halves) (s : State) :
    (cipherDone d h s).freeDraws = s.freeDraws := rfl

@[simp] theorem startExpand_roms (s : State) :
    (startExpand s).roms = s.roms := rfl

@[simp] theorem startExpand_cfgValid (s : State) :
    (startExpand s).cfgValid = s.cfgValid := rfl

@[simp] theorem startExpand_cfg (s : State) :
    (startExpand s).cfg = s.cfg := rfl

@[simp] theorem startExpand_keyValid (s : State) :
    (startExpand s).keyValid = s.keyValid := rfl

@[simp] theorem startExpand_err (s : State) :
    (startExpand s).err = s.err := rfl

@[simp] theorem startExpand_errcode (s : State) :
    (startExpand s).errcode = s.errcode := rfl

@[simp] theorem startExpand_keybuf (s : State) :
    (startExpand s).keybuf = s.keybuf := rfl

@[simp] theorem startExpand_inbuf (s : State) :
    (startExpand s).inbuf = s.inbuf := rfl

@[simp] theorem startExpand_outbuf (s : State) :
    (startExpand s).outbuf = s.outbuf := rfl

@[simp] theorem startExpand_x (s : State) :
    (startExpand s).x = s.x := rfl

@[simp] theorem startExpand_y (s : State) :
    (startExpand s).y = s.y := rfl

@[simp] theorem startExpand_win (s : State) :
    (startExpand s).win = (scheduleStart s.cfg s.keybuf ⟨s.win, s.rk⟩).win := rfl

@[simp] theorem startExpand_rk (s : State) :
    (startExpand s).rk = (scheduleStart s.cfg s.keybuf ⟨s.win, s.rk⟩).rk := rfl

@[simp] theorem startExpand_seq (s : State) :
    (startExpand s).seq = .ksStep := rfl

@[simp] theorem startExpand_rc (s : State) :
    (startExpand s).rc = 0 := rfl

@[simp] theorem startExpand_dir (s : State) :
    (startExpand s).dir = s.dir := rfl

@[simp] theorem startExpand_rspPending (s : State) :
    (startExpand s).rspPending = none := rfl

@[simp] theorem startExpand_port (s : State) :
    (startExpand s).port = s.port := rfl

@[simp] theorem startExpand_freeDraws (s : State) :
    (startExpand s).freeDraws = s.freeDraws := rfl

@[simp] theorem startCipher_roms (d : Dir) (s : State) :
    (startCipher d s).roms = s.roms := rfl

@[simp] theorem startCipher_cfgValid (d : Dir) (s : State) :
    (startCipher d s).cfgValid = s.cfgValid := rfl

@[simp] theorem startCipher_cfg (d : Dir) (s : State) :
    (startCipher d s).cfg = s.cfg := rfl

@[simp] theorem startCipher_keyValid (d : Dir) (s : State) :
    (startCipher d s).keyValid = s.keyValid := rfl

@[simp] theorem startCipher_err (d : Dir) (s : State) :
    (startCipher d s).err = s.err := rfl

@[simp] theorem startCipher_errcode (d : Dir) (s : State) :
    (startCipher d s).errcode = s.errcode := rfl

@[simp] theorem startCipher_keybuf (d : Dir) (s : State) :
    (startCipher d s).keybuf = s.keybuf := rfl

@[simp] theorem startCipher_inbuf (d : Dir) (s : State) :
    (startCipher d s).inbuf = s.inbuf := rfl

@[simp] theorem startCipher_outbuf (d : Dir) (s : State) :
    (startCipher d s).outbuf = s.outbuf := rfl

@[simp] theorem startCipher_x (d : Dir) (s : State) :
    (startCipher d s).x = (loadHalves s.cfg s.inbuf).x := rfl

@[simp] theorem startCipher_y (d : Dir) (s : State) :
    (startCipher d s).y = (loadHalves s.cfg s.inbuf).y := rfl

@[simp] theorem startCipher_win (d : Dir) (s : State) :
    (startCipher d s).win = s.win := rfl

@[simp] theorem startCipher_rk (d : Dir) (s : State) :
    (startCipher d s).rk = s.rk := rfl

@[simp] theorem startCipher_seq (d : Dir) (s : State) :
    (startCipher d s).seq = .rfRound := rfl

@[simp] theorem startCipher_rc (d : Dir) (s : State) :
    (startCipher d s).rc = 0 := rfl

@[simp] theorem startCipher_dir (d : Dir) (s : State) :
    (startCipher d s).dir = d := rfl

@[simp] theorem startCipher_rspPending (d : Dir) (s : State) :
    (startCipher d s).rspPending = none := rfl

@[simp] theorem startCipher_port (d : Dir) (s : State) :
    (startCipher d s).port = s.port := rfl

@[simp] theorem startCipher_freeDraws (d : Dir) (s : State) :
    (startCipher d s).freeDraws = s.freeDraws := rfl

@[simp] theorem rfPackEdge_roms (s : State) :
    (rfPackEdge s).roms = s.roms := rfl

@[simp] theorem rfPackEdge_cfgValid (s : State) :
    (rfPackEdge s).cfgValid = s.cfgValid := rfl

@[simp] theorem rfPackEdge_cfg (s : State) :
    (rfPackEdge s).cfg = s.cfg := rfl

@[simp] theorem rfPackEdge_keyValid (s : State) :
    (rfPackEdge s).keyValid = s.keyValid := rfl

@[simp] theorem rfPackEdge_err (s : State) :
    (rfPackEdge s).err = s.err := rfl

@[simp] theorem rfPackEdge_errcode (s : State) :
    (rfPackEdge s).errcode = s.errcode := rfl

@[simp] theorem rfPackEdge_keybuf (s : State) :
    (rfPackEdge s).keybuf = s.keybuf := rfl

@[simp] theorem rfPackEdge_inbuf (s : State) :
    (rfPackEdge s).inbuf = s.inbuf := rfl

@[simp] theorem rfPackEdge_outbuf (s : State) :
    (rfPackEdge s).outbuf = packHalves s.cfg ⟨s.x, s.y⟩ s.outbuf := rfl

@[simp] theorem rfPackEdge_x (s : State) :
    (rfPackEdge s).x = s.x := rfl

@[simp] theorem rfPackEdge_y (s : State) :
    (rfPackEdge s).y = s.y := rfl

@[simp] theorem rfPackEdge_win (s : State) :
    (rfPackEdge s).win = s.win := rfl

@[simp] theorem rfPackEdge_rk (s : State) :
    (rfPackEdge s).rk = s.rk := rfl

@[simp] theorem rfPackEdge_seq (s : State) :
    (rfPackEdge s).seq = .idle := rfl

@[simp] theorem rfPackEdge_rc (s : State) :
    (rfPackEdge s).rc = s.rc := rfl

@[simp] theorem rfPackEdge_dir (s : State) :
    (rfPackEdge s).dir = s.dir := rfl

@[simp] theorem rfPackEdge_rspPending (s : State) :
    (rfPackEdge s).rspPending = some (responseWord .ok 0) := rfl

@[simp] theorem rfPackEdge_port (s : State) :
    (rfPackEdge s).port = s.port := rfl

@[simp] theorem rfPackEdge_freeDraws (s : State) :
    (rfPackEdge s).freeDraws = s.freeDraws := rfl

@[simp] theorem presentWord_roms (c : CmdWord) (s : State) :
    (presentWord c s).roms = s.roms := rfl

@[simp] theorem presentWord_cfgValid (c : CmdWord) (s : State) :
    (presentWord c s).cfgValid = s.cfgValid := rfl

@[simp] theorem presentWord_cfg (c : CmdWord) (s : State) :
    (presentWord c s).cfg = s.cfg := rfl

@[simp] theorem presentWord_keyValid (c : CmdWord) (s : State) :
    (presentWord c s).keyValid = s.keyValid := rfl

@[simp] theorem presentWord_err (c : CmdWord) (s : State) :
    (presentWord c s).err = s.err := rfl

@[simp] theorem presentWord_errcode (c : CmdWord) (s : State) :
    (presentWord c s).errcode = s.errcode := rfl

@[simp] theorem presentWord_keybuf (c : CmdWord) (s : State) :
    (presentWord c s).keybuf = s.keybuf := rfl

@[simp] theorem presentWord_inbuf (c : CmdWord) (s : State) :
    (presentWord c s).inbuf = s.inbuf := rfl

@[simp] theorem presentWord_outbuf (c : CmdWord) (s : State) :
    (presentWord c s).outbuf = s.outbuf := rfl

@[simp] theorem presentWord_x (c : CmdWord) (s : State) :
    (presentWord c s).x = s.x := rfl

@[simp] theorem presentWord_y (c : CmdWord) (s : State) :
    (presentWord c s).y = s.y := rfl

@[simp] theorem presentWord_win (c : CmdWord) (s : State) :
    (presentWord c s).win = s.win := rfl

@[simp] theorem presentWord_rk (c : CmdWord) (s : State) :
    (presentWord c s).rk = s.rk := rfl

@[simp] theorem presentWord_seq (c : CmdWord) (s : State) :
    (presentWord c s).seq = .idle := rfl

@[simp] theorem presentWord_rc (c : CmdWord) (s : State) :
    (presentWord c s).rc = s.rc := rfl

@[simp] theorem presentWord_dir (c : CmdWord) (s : State) :
    (presentWord c s).dir = s.dir := rfl

@[simp] theorem presentWord_rspPending (c : CmdWord) (s : State) :
    (presentWord c s).rspPending = s.rspPending := rfl

@[simp] theorem presentWord_port (c : CmdWord) (s : State) :
    (presentWord c s).port = .command c :: s.port := rfl

@[simp] theorem presentWord_freeDraws (c : CmdWord) (s : State) :
    (presentWord c s).freeDraws = s.freeDraws := rfl

end Sys2Proof.Machine
end

