-- ==== Sys2Proof/Laws/Ops.lean ====
section
/-! SUPPORT. Laws/Ops.lean: what each shared operation and each command can do, said once. -/

namespace Sys2Proof.Machine

theorem responseWord_code (code : ResultCode) (data : Byte) :
    (responseWord code data).extractLsb' 8 8 = code.toByte := by
  apply BitVec.eq_of_toNat_eq
  have h1 := data.isLt
  have h2 := code.toByte.isLt
  simp only [responseWord, BitVec.extractLsb'_toNat, BitVec.toNat_append, Nat.shiftLeft_eq]
  rw [← Nat.shiftLeft_eq, ← Nat.shiftLeft_add_eq_or_of_lt h1, Nat.shiftLeft_eq, Nat.shiftRight_eq_div_pow]
  omega

theorem responseWord_data (code : ResultCode) (data : Byte) :
    (responseWord code data).extractLsb' 0 8 = data := by
  apply BitVec.eq_of_toNat_eq
  have h1 := data.isLt
  simp only [responseWord, BitVec.extractLsb'_toNat, BitVec.toNat_append, Nat.shiftLeft_eq]
  rw [← Nat.shiftLeft_eq, ← Nat.shiftLeft_add_eq_or_of_lt h1, Nat.shiftLeft_eq, Nat.shiftRight_eq_div_pow]
  omega

theorem toByte_eq_zero {code : ResultCode} : code.toByte = 0 ↔ code = .ok := by
  cases code <;> decide

/-- Running under the legality guard goes on exactly when the CFG registers are legal. -/
theorem whenLegal_eq_next {s t : State} {k : State → State} :
    whenLegal s k = .next t ↔ s.cfg.Legal ∧ k s = t := by
  unfold whenLegal
  split
  · next h => rw [Host.Outcome.next.injEq, and_iff_right h]
  · next h => exact ⟨fun e => (by cases e), fun e => absurd e.1 h⟩

theorem whenLegal_of_legal {s : State} (k : State → State) (h : s.cfg.Legal) :
    whenLegal s k = .next (k s) := if_pos h

theorem raise_eq (code : ResultCode) (s : State) : raise code s = .next (failed code s) := rfl

theorem raise_eq_next {code : ResultCode} {s t : State} : raise code s = .next t ↔ t = failed code s := by
  rw [raise_eq, Host.Outcome.next.injEq, eq_comm]

theorem complete_expandDone (k : Schedule) (n : Nat) (s : State) :
    complete .ok 0 (expandDone k n s) = expandDone k n s := rfl

theorem complete_cipherDone (d : Dir) (h : Halves) (s : State) :
    complete .ok 0 (cipherDone d h s) = cipherDone d h s := rfl

theorem failed_eq (code : ResultCode) (s : State) :
    failed code s = { s with
      err := true, errcode := code.toByte, rspPending := some (responseWord code 0),
      seq := .idle } := rfl

/-- The effect of a command that completes with OK: its response data and the state it completes from. -/
def Effect (i : Instr) (s : State) (data : Byte) (u : State) : Prop :=
  match i with
  | .nop => data = 0 ∧ u = s
  | .select vidx =>
    data = 0 ∧ checkDescriptor (romDescriptor s.roms vidx) = .ok ∧
    u = { s with
      cfg := cfgOfDescriptor s.roms vidx (romDescriptor s.roms vidx)
      cfgValid := true
      keyValid := false }
  | .wkey idx b => data = 0 ∧ u = { s with keybuf := setByte s.keybuf idx.toNat b }
  | .win idx b => data = 0 ∧ u = { s with inbuf := setByte s.inbuf idx.toNat b }
  | .expand len =>
    data = 0 ∧ checkExpand len s = .ok ∧ s.cfg.Legal ∧
    u = expandDone (runSchedule s.cfg s.keybuf ⟨s.win, s.rk⟩) (scheduleSteps s.cfg) s
  | .encrypt len =>
    data = 0 ∧ checkCipher len s = .ok ∧ s.cfg.Legal ∧
    u = cipherDone .encrypt (runRounds s.cfg s.rk .encrypt (loadHalves s.cfg s.inbuf)) s
  | .decrypt len =>
    data = 0 ∧ checkCipher len s = .ok ∧ s.cfg.Legal ∧
    u = cipherDone .decrypt (runRounds s.cfg s.rk .decrypt (loadHalves s.cfg s.inbuf)) s
  | .read addr => data = readWindow s addr ∧ u = s
  | .clrerr => data = 0 ∧ u = { s with err := false, errcode := 0 }
  | .sreset => data = 0 ∧ u = resetAll s

/-- The check that decides a command's failure: `ok` for the commands that never fail. -/
def checkOf (i : Instr) (s : State) : ResultCode :=
  match i with
  | .nop => .ok
  | .select vidx => checkDescriptor (romDescriptor s.roms vidx)
  | .wkey _ _ => .ok
  | .win _ _ => .ok
  | .expand len => checkExpand len s
  | .encrypt len => checkCipher len s
  | .decrypt len => checkCipher len s
  | .read _ => .ok
  | .clrerr => .ok
  | .sreset => .ok

theorem runCipher_eq_next {dir : Dir} {len : BitVec 6} {s t : State} :
    runCipher dir len s = .next t ↔
      (checkCipher len s ≠ .ok ∧ t = failed (checkCipher len s) s) ∨
      (checkCipher len s = .ok ∧ s.cfg.Legal ∧
        t = cipherDone dir (runRounds s.cfg s.rk dir (loadHalves s.cfg s.inbuf)) s) := by
  unfold runCipher
  split
  · next h => rw [whenLegal_eq_next, h]; simp [eq_comm]
  · next h =>
    rw [raise_eq_next]
    exact ⟨fun e => .inl ⟨h, e⟩, fun e => e.elim (·.2) fun e => absurd e.1 h⟩

theorem execExpand_eq_next {len : BitVec 6} {s t : State} :
    execExpand len s = .next t ↔
      (checkExpand len s ≠ .ok ∧ t = failed (checkExpand len s) s) ∨
      (checkExpand len s = .ok ∧ s.cfg.Legal ∧
        t = expandDone (runSchedule s.cfg s.keybuf ⟨s.win, s.rk⟩) (scheduleSteps s.cfg) s) := by
  unfold execExpand
  split
  · next h => rw [whenLegal_eq_next, h]; simp [eq_comm]
  · next h =>
    rw [raise_eq_next]
    exact ⟨fun e => .inl ⟨h, e⟩, fun e => e.elim (·.2) fun e => absurd e.1 h⟩

theorem execSelect_eq_next {vidx : BitVec 4} {s t : State} :
    execSelect vidx s = .next t ↔
      (checkDescriptor (romDescriptor s.roms vidx) ≠ .ok ∧
        t = failed (checkDescriptor (romDescriptor s.roms vidx)) s) ∨
      (checkDescriptor (romDescriptor s.roms vidx) = .ok ∧
        t = complete .ok 0 { s with
          cfg := cfgOfDescriptor s.roms vidx (romDescriptor s.roms vidx)
          cfgValid := true
          keyValid := false }) := by
  unfold execSelect
  split
  · next h => simp [h, respondOk, eq_comm]
  · next h =>
    rw [raise_eq_next]
    exact ⟨fun e => .inl ⟨h, e⟩, fun e => e.elim (·.2) fun e => absurd e.1 h⟩

/-- Everything a command can do when it completes: it fails with the code of its check and no other
effect, or it completes with OK and its effect. -/
theorem exec_cases {i : Instr} {s t : State} (h : exec i s = .next t) :
    (checkOf i s ≠ .ok ∧ t = failed (checkOf i s) s) ∨
    (checkOf i s = .ok ∧ ∃ data u, t = complete .ok data u ∧ Effect i s data u) := by
  cases i with
  | nop => cases h; exact .inr ⟨rfl, 0, _, rfl, rfl, rfl⟩
  | wkey idx b => cases h; exact .inr ⟨rfl, 0, _, rfl, rfl, rfl⟩
  | win idx b => cases h; exact .inr ⟨rfl, 0, _, rfl, rfl, rfl⟩
  | read addr => cases h; exact .inr ⟨rfl, _, _, rfl, rfl, rfl⟩
  | clrerr => cases h; exact .inr ⟨rfl, 0, _, rfl, rfl, rfl⟩
  | sreset => cases h; exact .inr ⟨rfl, 0, _, rfl, rfl, rfl⟩
  | select vidx =>
    rcases execSelect_eq_next.mp h with ⟨hc, rfl⟩ | ⟨hc, rfl⟩
    · exact .inl ⟨hc, rfl⟩
    · exact .inr ⟨hc, 0, _, rfl, rfl, hc, rfl⟩
  | expand len =>
    rcases execExpand_eq_next.mp h with ⟨hc, rfl⟩ | ⟨hc, hl, rfl⟩
    · exact .inl ⟨hc, rfl⟩
    · exact .inr ⟨hc, 0, _, (complete_expandDone _ _ s).symm, rfl, hc, hl, rfl⟩
  | encrypt len =>
    rcases runCipher_eq_next.mp h with ⟨hc, rfl⟩ | ⟨hc, hl, rfl⟩
    · exact .inl ⟨hc, rfl⟩
    · exact .inr ⟨hc, 0, _, (complete_cipherDone _ _ s).symm, rfl, hc, hl, rfl⟩
  | decrypt len =>
    rcases runCipher_eq_next.mp h with ⟨hc, rfl⟩ | ⟨hc, hl, rfl⟩
    · exact .inl ⟨hc, rfl⟩
    · exact .inr ⟨hc, 0, _, (complete_cipherDone _ _ s).symm, rfl, hc, hl, rfl⟩

/-- What a passed check of EXPAND says (R168). -/
theorem checkExpand_eq_ok {len : BitVec 6} {s : State} :
    checkExpand len s = .ok ↔ s.cfgValid = true ∧ len.toNat = s.cfg.m * s.cfg.wb := by
  unfold checkExpand
  split
  · next h => simp [h]
  · next h => split <;> simp_all

/-- What a passed check of ENCRYPT and DECRYPT says (R200). -/
theorem checkCipher_eq_ok {len : BitVec 6} {s : State} :
    checkCipher len s = .ok ↔
      s.cfgValid = true ∧ len.toNat = 2 * s.cfg.wb ∧ s.keyValid = true := by
  unfold checkCipher
  split
  · next h => simp [h]
  · next h => split <;> [simp_all; (split <;> simp_all)]

/-- A command whose check passes runs, when the CFG registers of a selected variant are legal. -/
theorem exec_completes (i : Instr) {s : State} (hl : s.cfgValid = true → s.cfg.Legal) :
    ∃ t, exec i s = .next t := by
  cases i with
  | nop => exact ⟨_, rfl⟩
  | wkey idx b => exact ⟨_, rfl⟩
  | win idx b => exact ⟨_, rfl⟩
  | read addr => exact ⟨_, rfl⟩
  | clrerr => exact ⟨_, rfl⟩
  | sreset => exact ⟨_, rfl⟩
  | select vidx =>
    by_cases hc : checkDescriptor (romDescriptor s.roms vidx) = .ok
    · exact ⟨_, execSelect_eq_next.mpr (.inr ⟨hc, rfl⟩)⟩
    · exact ⟨_, execSelect_eq_next.mpr (.inl ⟨hc, rfl⟩)⟩
  | expand len =>
    by_cases hc : checkExpand len s = .ok
    · exact ⟨_, execExpand_eq_next.mpr (.inr ⟨hc, hl (checkExpand_eq_ok.mp hc).1, rfl⟩)⟩
    · exact ⟨_, execExpand_eq_next.mpr (.inl ⟨hc, rfl⟩)⟩
  | encrypt len =>
    by_cases hc : checkCipher len s = .ok
    · exact ⟨_, runCipher_eq_next.mpr (.inr ⟨hc, hl (checkCipher_eq_ok.mp hc).1, rfl⟩)⟩
    · exact ⟨_, runCipher_eq_next.mpr (.inl ⟨hc, rfl⟩)⟩
  | decrypt len =>
    by_cases hc : checkCipher len s = .ok
    · exact ⟨_, runCipher_eq_next.mpr (.inr ⟨hc, hl (checkCipher_eq_ok.mp hc).1, rfl⟩)⟩
    · exact ⟨_, runCipher_eq_next.mpr (.inl ⟨hc, rfl⟩)⟩

end Sys2Proof.Machine
end

