-- ==== Sys2Proof/Laws/Packing.lean ====
section
/-! SUPPORT. Laws/Packing.lean: reads and writes of the indexed stores, and the byte-packing multiplexer
(R61, R121, R122, R128). -/

namespace Sys2Proof.Machine

variable {n : Nat}

/-- Read after write of a byte buffer. -/
theorem byteAt_setByte (buf : Vector Byte n) (i j : Nat) (b : Byte) :
    byteAt (setByte buf i b) j = if i = j ∧ j < n then b else byteAt buf j := by
  unfold byteAt setByte
  by_cases hj : j < n
  · simp only [hj, dite_true, and_true, Vector.getElem_setIfInBounds]
  · simp [hj]

@[simp] theorem byteAt_setByte_self (buf : Vector Byte n) {i : Nat} (h : i < n) (b : Byte) :
    byteAt (setByte buf i b) i = b := by
  simp [byteAt_setByte, h]

theorem byteAt_setByte_other (buf : Vector Byte n) {i j : Nat} (h : i ≠ j) (b : Byte) :
    byteAt (setByte buf i b) j = byteAt buf j := by
  simp [byteAt_setByte, h]

/-- Read after write of a word store. -/
theorem wordAt_setWord (store : Vector Word n) (i j : Nat) (v : Word) :
    wordAt (setWord store i v) j = if i = j ∧ j < n then v else wordAt store j := by
  unfold wordAt setWord
  by_cases hj : j < n
  · simp only [hj, dite_true, and_true, Vector.getElem_setIfInBounds]
  · simp [hj]

@[simp] theorem wordAt_setWord_self (store : Vector Word n) {i : Nat} (h : i < n) (v : Word) :
    wordAt (setWord store i v) i = v := by
  simp [wordAt_setWord, h]

theorem wordAt_setWord_other (store : Vector Word n) {i j : Nat} (h : i ≠ j) (v : Word) :
    wordAt (setWord store i v) j = wordAt store j := by
  simp [wordAt_setWord, h]

theorem byteAt_eq_getElem (buf : Vector Byte n) {i : Nat} (h : i < n) : byteAt buf i = buf[i] := by
  simp [byteAt, h]

theorem wordAt_eq_getElem (store : Vector Word n) {i : Nat} (h : i < n) :
    wordAt store i = store[i] := by
  simp [wordAt, h]

theorem byteAt_of_ge (buf : Vector Byte n) {i : Nat} (h : n ≤ i) : byteAt buf i = 0 := by
  simp [byteAt, h]

theorem wordAt_of_ge (store : Vector Word n) {i : Nat} (h : n ≤ i) : wordAt store i = 0 := by
  simp [wordAt, h]

@[simp] theorem byteAt_replicate_zero (k i : Nat) :
    byteAt (Vector.replicate k (0 : Byte)) i = 0 := by
  by_cases h : i < k
  · rw [byteAt_eq_getElem _ h]; simp
  · exact byteAt_of_ge _ (Nat.le_of_not_lt h)

theorem byteAt_ofFn (f : Fin n → Byte) {i : Nat} (h : i < n) :
    byteAt (Vector.ofFn f) i = f ⟨i, h⟩ := by
  rw [byteAt_eq_getElem _ h, Vector.getElem_ofFn]

theorem wordAt_ofFn (f : Fin n → Word) {i : Nat} (h : i < n) :
    wordAt (Vector.ofFn f) i = f ⟨i, h⟩ := by
  rw [wordAt_eq_getElem _ h, Vector.getElem_ofFn]

/-- Two buffers with the same bytes are the same buffer. -/
theorem buffer_ext {a b : Vector Byte n} (h : ∀ i, i < n → byteAt a i = byteAt b i) : a = b := by
  apply Vector.ext
  intro i hi
  rw [← byteAt_eq_getElem _ hi, ← byteAt_eq_getElem _ hi]
  exact h i hi

theorem byteAt_clearFrom (buf : Vector Byte n) (start i : Nat) :
    byteAt (clearFrom buf start) i = if start ≤ i then 0 else byteAt buf i := by
  by_cases h : i < n
  · rw [clearFrom, byteAt_ofFn _ h, byteAt_eq_getElem _ h]
    rfl
  · rw [byteAt_of_ge _ (Nat.le_of_not_lt h), byteAt_of_ge _ (Nat.le_of_not_lt h)]
    simp

/-- The bytes a pack has written after k of its writes, and those it has not (R122). -/
theorem byteAt_packBytes (buf : Vector Byte n) (base : Nat) (v : Word) (k i : Nat) :
    byteAt (packBytes buf base v k) i =
      if base ≤ i ∧ i < base + k ∧ i < n then byteOf v (i - base) else byteAt buf i := by
  induction k with
  | zero =>
    rw [packBytes, if_neg (by omega)]
  | succ k ih =>
    rw [packBytes, byteAt_setByte, ih]
    by_cases h : base + k = i ∧ i < n
    · rw [if_pos h, if_pos (by omega), show i - base = k by omega]
    · rw [if_neg h]
      by_cases h' : base ≤ i ∧ i < base + k ∧ i < n
      · rw [if_pos h', if_pos (by omega)]
      · rw [if_neg h', if_neg (by omega)]

theorem byteAt_pack (c : Cfg) (buf : Vector Byte n) (j : Nat) (v : Word) (i : Nat) :
    byteAt (pack c buf j v) i =
      if j * c.wb ≤ i ∧ i < j * c.wb + c.wb ∧ i < n then byteOf v (i - j * c.wb)
      else byteAt buf i :=
  byteAt_packBytes buf (j * c.wb) v c.wb i

/-- The sum of k bytes fits 8*k bits. -/
theorem bytesValue_lt (buf : Vector Byte n) (base k : Nat) :
    bytesValue buf base k < 2 ^ (8 * k) := by
  induction k with
  | zero => simp [bytesValue]
  | succ k ih =>
    have hb : (byteAt buf (base + k)).toNat < 2 ^ 8 := (byteAt buf (base + k)).isLt
    rw [bytesValue, Nat.shiftLeft_eq, show 8 * (k + 1) = 8 * k + 8 by ring, pow_add]
    nlinarith [Nat.two_pow_pos (8 * k)]

/-- Byte b of the sum is the buffer's byte b (R61). -/
theorem bytesValue_byte (buf : Vector Byte n) (base : Nat) {k b : Nat} (hb : b < k) :
    bytesValue buf base k / 2 ^ (8 * b) % 2 ^ 8 = (byteAt buf (base + b)).toNat := by
  induction k with
  | zero => omega
  | succ k ih =>
    rw [bytesValue, Nat.shiftLeft_eq]
    by_cases h : b < k
    · have hsplit : 2 ^ (8 * k) = 2 ^ (8 * b) * (2 ^ 8 * 2 ^ (8 * (k - b - 1))) := by
        rw [← pow_add, ← pow_add]; congr 1; omega
      rw [hsplit, show (byteAt buf (base + k)).toNat *
          (2 ^ (8 * b) * (2 ^ 8 * 2 ^ (8 * (k - b - 1))))
          = 2 ^ (8 * b) * (2 ^ 8 * ((byteAt buf (base + k)).toNat * 2 ^ (8 * (k - b - 1)))) by ring,
        Nat.add_mul_div_left _ _ (Nat.two_pow_pos _), Nat.add_mul_mod_self_left]
      exact ih h
    · have hbk : b = k := by omega
      subst hbk
      rw [Nat.mul_comm, Nat.add_mul_div_left _ _ (Nat.two_pow_pos _),
        Nat.div_eq_of_lt (bytesValue_lt buf base b), Nat.zero_add]
      exact Nat.mod_eq_of_lt (byteAt buf (base + b)).isLt

theorem wb_facts {c : Cfg} (hw : c.w ∈ wordWidths) : 8 * c.wb = c.w ∧ 2 ≤ c.wb ∧ c.wb ≤ 8 := by
  simp only [wordWidths, List.mem_cons, List.not_mem_nil, or_false] at hw
  unfold Cfg.wb
  omega

theorem toNat_unpack {c : Cfg} (hw : c.w ∈ wordWidths) (buf : Vector Byte n) (j : Nat) :
    (unpack c buf j).toNat = bytesValue buf (j * c.wb) c.wb := by
  have h64 := (wordWidths_le hw).2
  have hlt := bytesValue_lt buf (j * c.wb) c.wb
  have hle : 2 ^ (8 * c.wb) ≤ 2 ^ 64 := Nat.pow_le_pow_right (by omega) (by have := wb_facts hw; omega)
  rw [unpack, toNat_and_maskW h64, BitVec.toNat_ofNat, Nat.mod_eq_of_lt (Nat.lt_of_lt_of_le hlt hle),
    ← (wb_facts hw).1, Nat.mod_eq_of_lt hlt]

theorem isWord_unpack {c : Cfg} (hw : c.w ∈ wordWidths) (buf : Vector Byte n) (j : Nat) :
    IsWord c.w (unpack c buf j) :=
  isWord_and_maskW (wordWidths_le hw).2 _

theorem toNat_byteOf (v : Word) (b : Nat) : (byteOf v b).toNat = v.toNat / 2 ^ (8 * b) % 2 ^ 8 := by
  rw [byteOf, BitVec.toNat_setWidth, BitVec.toNat_ushiftRight, Nat.shiftRight_eq_div_pow]

/-- Byte b of an unpacked word is the buffer's byte (R61, R121). -/
theorem byteOf_unpack {c : Cfg} (hw : c.w ∈ wordWidths) (buf : Vector Byte n) (j : Nat) {b : Nat}
    (hb : b < c.wb) : byteOf (unpack c buf j) b = byteAt buf (j * c.wb + b) := by
  apply BitVec.eq_of_toNat_eq
  rw [toNat_byteOf, toNat_unpack hw, bytesValue_byte buf _ hb]

/-- An unpack depends only on the wb bytes it reads (R129). -/
theorem unpack_congr {n' : Nat} {c : Cfg} {a : Vector Byte n} {b : Vector Byte n'} {j j' : Nat}
    (h : ∀ i, i < c.wb → byteAt a (j * c.wb + i) = byteAt b (j' * c.wb + i)) :
    unpack c a j = unpack c b j' := by
  have key : ∀ k, k ≤ c.wb →
      bytesValue a (j * c.wb) k = bytesValue b (j' * c.wb) k := by
    intro k
    induction k with
    | zero => intro _; rfl
    | succ k ih => intro hk; rw [bytesValue, bytesValue, ih (by omega), h k (by omega)]
  rw [unpack, unpack, key c.wb (Nat.le_refl _)]

/-- A w-word is known by its wb bytes. -/
theorem word_ext_bytes {w : Nat} {u v : Word} (hu : IsWord w u) (hv : IsWord w v) {k : Nat}
    (hk : w ≤ 8 * k) (h : ∀ b, b < k → byteOf u b = byteOf v b) : u = v := by
  apply BitVec.eq_of_getLsbD_eq
  intro i _
  by_cases hi : i < w
  · have hb : i / 8 < k := by omega
    have := congrArg (fun x : Byte => x.getLsbD (i % 8)) (h (i / 8) hb)
    simpa [byteOf, BitVec.getLsbD_setWidth, BitVec.getLsbD_ushiftRight, Nat.mod_lt,
      show 8 * (i / 8) + i % 8 = i by omega] using this
  · rw [hu.getLsbD_eq_false (Nat.le_of_not_lt hi), hv.getLsbD_eq_false (Nat.le_of_not_lt hi)]

/-- Unpack after pack gives the word back (R128). -/
theorem unpack_pack {c : Cfg} (hw : c.w ∈ wordWidths) (buf : Vector Byte n) {j : Nat} {v : Word}
    (hj : j * c.wb + c.wb ≤ n) (hv : IsWord c.w v) : unpack c (pack c buf j v) j = v := by
  refine word_ext_bytes (isWord_unpack hw _ _) hv (k := c.wb) (by have := wb_facts hw; omega) ?_
  intro b hb
  rw [byteOf_unpack hw _ _ hb, byteAt_pack, if_pos (by omega), show j * c.wb + b - j * c.wb = b by omega]

end Sys2Proof.Machine
end

