-- ==== Sys2Proof/Laws/PerInstr.lean ====
section
/-! SUPPORT. Laws/PerInstr.lean: one lemma per command: its encoded word matches its row of the opcode map
(R87, R91). -/

namespace Sys2Proof.Laws.EncodeMatchesTable

/-- The encoded word matches a row of the opcode map that has the command's mnemonic (R87). -/
def Statement (i : Instr) : Prop :=
  ∃ row ∈ opcodeTable, row.mnemonic = i.mnemonic ∧ encode i &&& row.mask = row.pattern

/-- A word of a row's fixed bits and an operand outside its mask matches the row. -/
theorem and_mask {n : Nat} {mask : CmdWord} (base : CmdWord)
    (hmask : mask.extractLsb' 0 n = 0#n) (f : BitVec n) :
    (base ||| f.setWidth 32) &&& mask = base &&& mask := by
  apply BitVec.eq_of_getLsbD_eq
  intro j hj
  simp only [BitVec.getLsbD_and, BitVec.getLsbD_or, BitVec.getLsbD_setWidth, hj, decide_true,
    Bool.true_and]
  by_cases h : j < n
  · have h0 := congrArg (BitVec.getLsbD · j) hmask
    simp only [BitVec.getLsbD_extractLsb', Nat.zero_add, BitVec.getLsbD_zero, h, decide_true,
      Bool.true_and] at h0
    simp only [h0, Bool.and_false]
  · simp only [BitVec.getLsbD_of_ge f j (Nat.le_of_not_lt h), Bool.or_false]

theorem nop : Statement .nop := ⟨⟨"NOP", _, _⟩, .head _, rfl, by decide⟩

theorem select (vidx : BitVec 4) : Statement (.select vidx) :=
  ⟨⟨"SELECT", _, _⟩, .tail _ (.head _), rfl, by rw [encode, and_mask _ (by decide)]; decide⟩

theorem wkey (idx : BitVec 5) (data : Byte) : Statement (.wkey idx data) :=
  ⟨⟨"WKEY", _, _⟩, .tail _ (.tail _ (.head _)), rfl, by
    rw [encode, or_fields, and_mask _ (by decide)]; decide⟩

theorem win (idx : BitVec 4) (data : Byte) : Statement (.win idx data) :=
  ⟨⟨"WIN", _, _⟩, .tail _ (.tail _ (.tail _ (.head _))), rfl, by
    rw [encode, or_fields, and_mask _ (by decide)]; decide⟩

theorem expand (len : BitVec 6) : Statement (.expand len) :=
  ⟨⟨"EXPAND", _, _⟩, .tail _ (.tail _ (.tail _ (.tail _ (.head _)))), rfl, by
    rw [encode, and_mask _ (by decide)]; decide⟩

theorem encrypt (len : BitVec 6) : Statement (.encrypt len) :=
  ⟨⟨"ENCRYPT", _, _⟩, .tail _ (.tail _ (.tail _ (.tail _ (.tail _ (.head _))))), rfl, by
    rw [encode, and_mask _ (by decide)]; decide⟩

theorem decrypt (len : BitVec 6) : Statement (.decrypt len) :=
  ⟨⟨"DECRYPT", _, _⟩, .tail _ (.tail _ (.tail _ (.tail _ (.tail _ (.tail _ (.head _)))))), rfl, by
    rw [encode, and_mask _ (by decide)]; decide⟩

theorem read (addr : BitVec 8) : Statement (.read addr) :=
  ⟨⟨"READ", _, _⟩, .tail _ (.tail _ (.tail _ (.tail _ (.tail _ (.tail _ (.tail _ (.head _))))))), rfl,
    by rw [encode, and_mask _ (by decide)]; decide⟩

theorem clrerr : Statement .clrerr :=
  ⟨⟨"CLRERR", _, _⟩,
    .tail _ (.tail _ (.tail _ (.tail _ (.tail _ (.tail _ (.tail _ (.tail _ (.head _)))))))), rfl,
    by decide⟩

theorem sreset : Statement .sreset :=
  ⟨⟨"SRESET", _, _⟩,
    .tail _ (.tail _ (.tail _ (.tail _ (.tail _ (.tail _ (.tail _ (.tail _ (.tail _ (.head _))))))))),
    rfl, by decide⟩

end Sys2Proof.Laws.EncodeMatchesTable
end

