-- ==== Sys2Proof/Laws/Rounds.lean ====
section
/-! SUPPORT. Laws/Rounds.lean: the rounds keep w-words and undo each other (R35, R186), and the bytes of a packed
result (R205). -/

namespace Sys2Proof.Machine

/-- Both halves are w-words (R35). -/
abbrev HalvesAreWords (w : Nat) (h : Halves) : Prop := IsWord w h.x ∧ IsWord w h.y

theorem speckRound_words {w : Nat} (hw : w ≤ 64) (alpha beta : Nat) (k : Word) (h : Halves) :
    HalvesAreWords w (speckRound w alpha beta k h) :=
  ⟨isWord_xorW hw _ _, isWord_xorW hw _ _⟩

theorem speckInv_words {w : Nat} (hw : w ≤ 64) (alpha beta : Nat) (k : Word) (h : Halves) :
    HalvesAreWords w (speckInv w alpha beta k h) :=
  ⟨(isWord_subW hw _ _).rolW hw _, (isWord_xorW hw _ _).rorW hw _⟩

theorem simonRound_words {w : Nat} (hw : w ≤ 64) (k : Word) {h : Halves}
    (hh : HalvesAreWords w h) : HalvesAreWords w (simonRound w k h) :=
  ⟨isWord_xorW hw _ _, hh.1⟩

theorem simonInv_words {w : Nat} (hw : w ≤ 64) (k : Word) {h : Halves}
    (hh : HalvesAreWords w h) : HalvesAreWords w (simonInv w k h) :=
  ⟨hh.2, isWord_xorW hw _ _⟩

/-- `speck_inv(speck_round(x, y, k), k) = (x, y)` (R186). -/
theorem speckInv_speckRound {w alpha beta : Nat} (hw : w ≤ 64) (ha : alpha ≤ w) (hb : beta ≤ w)
    (k : Word) {h : Halves} (hh : HalvesAreWords w h) :
    speckInv w alpha beta k (speckRound w alpha beta k h) = h := by
  simp only [speckInv, speckRound]
  rw [xorW_xorW_cancel (hh.2.rolW hw beta), rorW_rolW_cancel hw hh.2 hb,
    xorW_xorW_cancel (isWord_addW hw _ _), subW_addW_cancel hw (hh.1.rorW hw alpha) hh.2,
    rolW_rorW_cancel hw hh.1 ha]

/-- `speck_round(speck_inv(x, y, k), k) = (x, y)` (R186). -/
theorem speckRound_speckInv {w alpha beta : Nat} (hw : w ≤ 64) (ha : alpha ≤ w) (hb : beta ≤ w)
    (k : Word) {h : Halves} (hh : HalvesAreWords w h) :
    speckRound w alpha beta k (speckInv w alpha beta k h) = h := by
  simp only [speckInv, speckRound]
  rw [rorW_rolW_cancel hw (isWord_subW hw _ _) ha,
    addW_subW_cancel hw (isWord_xorW hw _ _) ((isWord_xorW hw _ _).rorW hw beta),
    xorW_xorW_cancel hh.1, rolW_rorW_cancel hw (isWord_xorW hw _ _) hb, xorW_xorW_cancel hh.2]

/-- `simon_inv(simon_round(x, y, k), k) = (x, y)` (R186). -/
theorem simonInv_simonRound {w : Nat} (k : Word) {h : Halves} (hh : HalvesAreWords w h) :
    simonInv w k (simonRound w k h) = h := by
  obtain ⟨x, y⟩ := h
  simp only [simonInv, simonRound, simonF, Halves.mk.injEq, true_and]
  apply BitVec.eq_of_getLsbD_eq
  intro j _
  simp only [getLsbD_xorW]
  by_cases hj : j < w
  · simp only [hj, decide_true, Bool.and_true, andW, BitVec.getLsbD_and]
    generalize (rolW w x 1).getLsbD j = p, (rolW w x 8).getLsbD j = q, (rolW w x 2).getLsbD j = r
    generalize (maskW w).getLsbD j = m, y.getLsbD j = u, k.getLsbD j = v
    revert p q r m u v; decide
  · simp [hj, hh.2.getLsbD_eq_false (Nat.le_of_not_lt hj)]

/-- `simon_round(simon_inv(x, y, k), k) = (x, y)` (R186). -/
theorem simonRound_simonInv {w : Nat} (k : Word) {h : Halves} (hh : HalvesAreWords w h) :
    simonRound w k (simonInv w k h) = h := by
  obtain ⟨x, y⟩ := h
  simp only [simonInv, simonRound, simonF, Halves.mk.injEq, and_true]
  apply BitVec.eq_of_getLsbD_eq
  intro j _
  simp only [getLsbD_xorW]
  by_cases hj : j < w
  · simp only [hj, decide_true, Bool.and_true, andW, BitVec.getLsbD_and]
    generalize (rolW w y 1).getLsbD j = p, (rolW w y 8).getLsbD j = q, (rolW w y 2).getLsbD j = r
    generalize (maskW w).getLsbD j = m, x.getLsbD j = u, k.getLsbD j = v
    revert p q r m u v; decide
  · simp [hj, hh.1.getLsbD_eq_false (Nat.le_of_not_lt hj)]

/-- The widths and amounts of a legal configuration. -/
theorem legal_amounts {c : Cfg} (hc : c.Legal) :
    c.w ∈ wordWidths ∧ c.w ≤ 64 ∧ c.alpha.toNat ≤ c.w ∧ c.beta.toNat ≤ c.w := by
  obtain ⟨hw, -, -, -, hs, hp⟩ := hc
  refine ⟨hw, (wordWidths_le hw).2, ?_⟩
  cases hf : c.family with
  | simon => rw [(hs hf).1, (hs hf).2]; exact ⟨Nat.zero_le _, Nat.zero_le _⟩
  | speck => have := hp hf; omega

theorem roundForward_speck {c : Cfg} (hf : c.family = .speck) (k : Word) (h : Halves) :
    roundForward c k h = speckRound c.w c.alpha.toNat c.beta.toNat k h := by
  unfold roundForward; rw [hf]

theorem roundForward_simon {c : Cfg} (hf : c.family = .simon) (k : Word) (h : Halves) :
    roundForward c k h = simonRound c.w k h := by
  unfold roundForward; rw [hf]

theorem roundInverse_speck {c : Cfg} (hf : c.family = .speck) (k : Word) (h : Halves) :
    roundInverse c k h = speckInv c.w c.alpha.toNat c.beta.toNat k h := by
  unfold roundInverse; rw [hf]

theorem roundInverse_simon {c : Cfg} (hf : c.family = .simon) (k : Word) (h : Halves) :
    roundInverse c k h = simonInv c.w k h := by
  unfold roundInverse; rw [hf]

theorem roundForward_words {c : Cfg} (hw : c.w ≤ 64) (k : Word) {h : Halves}
    (hh : HalvesAreWords c.w h) : HalvesAreWords c.w (roundForward c k h) := by
  unfold roundForward
  split
  · exact speckRound_words hw _ _ _ _
  · exact simonRound_words hw _ hh

theorem roundInverse_words {c : Cfg} (hw : c.w ≤ 64) (k : Word) {h : Halves}
    (hh : HalvesAreWords c.w h) : HalvesAreWords c.w (roundInverse c k h) := by
  unfold roundInverse
  split
  · exact speckInv_words hw _ _ _ _
  · exact simonInv_words hw _ hh

/-- The inverse round of the selected family undoes its round (R186). -/
theorem roundInverse_roundForward {c : Cfg} (hc : c.Legal) (k : Word) {h : Halves}
    (hh : HalvesAreWords c.w h) : roundInverse c k (roundForward c k h) = h := by
  obtain ⟨-, hw, ha, hb⟩ := legal_amounts hc
  unfold roundForward roundInverse
  cases c.family with
  | simon => exact simonInv_simonRound k hh
  | speck => exact speckInv_speckRound hw ha hb k hh

/-- The round of the selected family undoes its inverse (R186). -/
theorem roundForward_roundInverse {c : Cfg} (hc : c.Legal) (k : Word) {h : Halves}
    (hh : HalvesAreWords c.w h) : roundForward c k (roundInverse c k h) = h := by
  obtain ⟨-, hw, ha, hb⟩ := legal_amounts hc
  unfold roundForward roundInverse
  cases c.family with
  | simon => exact simonRound_simonInv k hh
  | speck => exact speckRound_speckInv hw ha hb k hh

theorem loadHalves_words {c : Cfg} (hw : c.w ∈ wordWidths) (inbuf : Vector Byte 16) :
    HalvesAreWords c.w (loadHalves c inbuf) :=
  ⟨isWord_unpack hw _ _, isWord_unpack hw _ _⟩

/-- The halves depend on INBUF[0..2*wb-1] only (R129, R201). -/
theorem loadHalves_congr {c : Cfg} {a b : Vector Byte 16}
    (h : ∀ i, i < 2 * c.wb → byteAt a i = byteAt b i) : loadHalves c a = loadHalves c b := by
  simp only [loadHalves, Halves.mk.injEq]
  exact ⟨unpack_congr fun i hi => h _ (by omega), unpack_congr fun i hi => h _ (by omega)⟩

/-- All T rounds of one direction, on w-words, give w-words. -/
theorem runRounds_words {c : Cfg} (hw : c.w ≤ 64) (rk : Vector Word 69) (dir : Dir) {h : Halves}
    (hh : HalvesAreWords c.w h) : HalvesAreWords c.w (runRounds c rk dir h) := by
  cases dir with
  | encrypt =>
    exact forUp_invariant (fun _ => HalvesAreWords c.w) hh fun i b _ hb => roundForward_words hw _ hb
  | decrypt =>
    simp only [runRounds, forDown_eq_forUp]
    exact forUp_invariant (fun _ => HalvesAreWords c.w) hh fun i b _ hb => roundInverse_words hw _ hb

/-- The rounds of one direction depend on RK[0..T-1] only. -/
theorem runRounds_congr {c : Cfg} {rk rk' : Vector Word 69} (dir : Dir) (h : Halves)
    (hk : ∀ j, j < c.T → wordAt rk j = wordAt rk' j) :
    runRounds c rk dir h = runRounds c rk' dir h := by
  cases dir with
  | encrypt => exact forUp_congr _ fun i hi b => by rw [hk i hi]
  | decrypt =>
    simp only [runRounds, forDown_eq_forUp]
    exact forUp_congr _ fun i hi b => by rw [hk _ (by omega)]

/-- The T rounds of DECRYPT undo those of ENCRYPT (R208). -/
theorem runRounds_decrypt_encrypt {c : Cfg} (hc : c.Legal) (rk : Vector Word 69) {h : Halves}
    (hh : HalvesAreWords c.w h) :
    runRounds c rk .decrypt (runRounds c rk .encrypt h) = h :=
  forDown_undoes_forUp (HalvesAreWords c.w) hh
    (fun _ _ _ hb => roundForward_words (legal_amounts hc).2.1 _ hb)
    fun _ _ _ hb => roundInverse_roundForward hc _ hb

/-- The T rounds of ENCRYPT undo those of DECRYPT (R208). -/
theorem runRounds_encrypt_decrypt {c : Cfg} (hc : c.Legal) (rk : Vector Word 69) {h : Halves}
    (hh : HalvesAreWords c.w h) :
    runRounds c rk .encrypt (runRounds c rk .decrypt h) = h :=
  forUp_undoes_forDown (HalvesAreWords c.w) hh
    (fun _ _ _ hb => roundInverse_words (legal_amounts hc).2.1 _ hb)
    fun _ _ _ hb => roundForward_roundInverse hc _ hb

/-- The bytes of a packed result: Y, then X, then zeros (R205). -/
theorem byteAt_packHalves {c : Cfg} (hw : c.w ∈ wordWidths) (h : Halves) (outbuf : Vector Byte 16)
    {b : Nat} (hb : b < 16) :
    byteAt (packHalves c h outbuf) b =
      if b < c.wb then byteOf h.y b else if b < 2 * c.wb then byteOf h.x (b - c.wb) else 0 := by
  obtain ⟨-, h2, h8⟩ := wb_facts hw
  rw [packHalves, byteAt_clearFrom, byteAt_pack, byteAt_pack, Nat.zero_mul, Nat.one_mul]
  by_cases h1 : b < c.wb
  · rw [if_neg (by omega), if_neg (by omega), if_pos (by omega), if_pos h1, Nat.sub_zero]
  · by_cases h3 : b < 2 * c.wb
    · rw [if_neg (by omega), if_pos (by omega), if_neg h1, if_pos h3]
    · rw [if_pos (by omega), if_neg h1, if_neg h3]

/-- A packed result does not depend on what OUTBUF held (R205). -/
theorem packHalves_congr {c : Cfg} (hw : c.w ∈ wordWidths) (h : Halves)
    (outbuf outbuf' : Vector Byte 16) : packHalves c h outbuf = packHalves c h outbuf' :=
  buffer_ext fun i hi => by rw [byteAt_packHalves hw _ _ hi, byteAt_packHalves hw _ _ hi]

/-- Halves loaded from a buffer that starts with a packed result are the packed halves (R201, R205). -/
theorem loadHalves_packHalves {c : Cfg} (hw : c.w ∈ wordWidths) {h : Halves}
    (hh : HalvesAreWords c.w h) {outbuf inbuf : Vector Byte 16}
    (hcopy : ∀ b, b < 2 * c.wb → byteAt inbuf b = byteAt (packHalves c h outbuf) b) :
    loadHalves c inbuf = h := by
  obtain ⟨hwb, h2, h8⟩ := wb_facts hw
  obtain ⟨x, y⟩ := h
  simp only [loadHalves, Halves.mk.injEq]
  constructor
  · refine word_ext_bytes (isWord_unpack hw _ _) hh.1 (k := c.wb) (by omega) fun b hb => ?_
    rw [byteOf_unpack hw _ _ hb, Nat.one_mul, hcopy _ (by omega), byteAt_packHalves hw _ _ (by omega),
      if_neg (by omega), if_pos (by omega), show c.wb + b - c.wb = b by omega]
  · refine word_ext_bytes (isWord_unpack hw _ _) hh.2 (k := c.wb) (by omega) fun b hb => ?_
    rw [byteOf_unpack hw _ _ hb, Nat.zero_mul, Nat.zero_add, hcopy _ (by omega),
      byteAt_packHalves hw _ _ (by omega), if_pos hb]

/-- A result packed from loaded halves gives the block's bytes back (R208). -/
theorem packHalves_loadHalves {c : Cfg} (hw : c.w ∈ wordWidths) (inbuf outbuf : Vector Byte 16)
    {b : Nat} (hb : b < 2 * c.wb) :
    byteAt (packHalves c (loadHalves c inbuf) outbuf) b = byteAt inbuf b := by
  obtain ⟨-, h2, h8⟩ := wb_facts hw
  rw [byteAt_packHalves hw _ _ (by omega)]
  by_cases h1 : b < c.wb
  · rw [if_pos h1, loadHalves, byteOf_unpack hw _ _ h1, Nat.zero_mul, Nat.zero_add]
  · rw [if_neg h1, if_pos hb, loadHalves, byteOf_unpack hw _ _ (by omega), Nat.one_mul,
      show c.wb + (b - c.wb) = b by omega]

end Sys2Proof.Machine
end

