-- ==== Sys2Proof/Laws/Schedule.lean ====
section
/-! SUPPORT. Laws/Schedule.lean: the key schedule, slot by slot (R161-R168). -/

namespace Sys2Proof.Machine

/-- The ranges of a legal configuration. -/
theorem legal_ranges {c : Cfg} (hc : c.Legal) :
    2 ≤ c.m ∧ c.m ≤ 4 ∧ 22 ≤ c.T ∧ c.T ≤ 69 := by
  obtain ⟨-, hm, h1, h2, -⟩ := hc
  simp only [keyWordCounts, List.mem_cons, List.not_mem_nil, or_false] at hm
  simp only [roundsMin, roundsMax] at h1 h2
  omega

theorem wordAt_loadWindow (c : Cfg) (keybuf : Vector Byte 32) (win : Vector Word 4) {j : Nat}
    (hj : j < 4) :
    wordAt (loadWindow c keybuf win) j = if j < c.m then unpack c keybuf j else wordAt win j := by
  rw [loadWindow, wordAt_ofFn _ hj, wordAt_eq_getElem _ hj]
  rfl

/-- The new round key of Speck step i, from the old window (R163). -/
def speckX (c : Cfg) (i : Nat) (win : Vector Word 4) : Word :=
  xorW c.w (addW c.w (rorW c.w (wordAt win 1) c.alpha.toNat) (wordAt win 0)) (zextStep i)

theorem wordAt_speckStep (c : Cfg) (i : Nat) (win : Vector Word 4) {j : Nat} (hj : j < 4) :
    wordAt (speckStep c i win) j =
      if j = 0 then xorW c.w (rolW c.w (wordAt win 0) c.beta.toNat) (speckX c i win)
      else if j + 1 < c.m then wordAt win (j + 1)
      else if j + 1 = c.m then speckX c i win
      else wordAt win j := by
  rw [speckStep, wordAt_ofFn _ hj, wordAt_eq_getElem win hj]
  rfl

theorem wordAt_simonStep (c : Cfg) (i : Nat) (win : Vector Word 4) {j : Nat} (hj : j < 4) :
    wordAt (simonStep c i win) j =
      if j + 1 < c.m then wordAt win (j + 1)
      else if j + 1 = c.m then simonNewWord c i win
      else wordAt win j := by
  rw [simonStep, wordAt_ofFn _ hj, wordAt_eq_getElem win hj]
  rfl

theorem scheduleStep_speck {c : Cfg} (hf : c.family = .speck) (i : Nat) (k : Schedule) :
    scheduleStep c i k =
      ⟨speckStep c i k.win, setWord k.rk (i + 1) (wordAt (speckStep c i k.win) 0)⟩ := by
  unfold scheduleStep; rw [hf]

theorem scheduleStep_simon {c : Cfg} (hf : c.family = .simon) (i : Nat) (k : Schedule) :
    scheduleStep c i k =
      ⟨simonStep c i k.win, setWord k.rk (c.m + i) (wordAt (simonStep c i k.win) (c.m - 1))⟩ := by
  unfold scheduleStep; rw [hf]

/-- A zero-extended step index below 128 is the index (R112). -/
theorem zextStep_eq {i : Nat} (h : i < 128) : zextStep i = BitVec.ofNat 64 i := by
  apply BitVec.eq_of_toNat_eq
  rw [zextStep, BitVec.toNat_setWidth, BitVec.toNat_ofNat, BitVec.toNat_ofNat]
  omega

theorem simonConst_eq (c : Cfg) (i : Nat) :
    simonConst c i = c.fixc ^^^ (if c.z.getLsbD (i % 62) then 1 else 0) := by
  unfold simonConst
  cases c.z.getLsbD (i % 62) <;> rfl

theorem simonNewWord_eq (c : Cfg) (i : Nat) (win : Vector Word 4) :
    simonNewWord c i win =
      let u := if c.m = 4 then
          xorW c.w (rorW c.w (wordAt win (c.m - 1)) 3) (wordAt win 1)
        else rorW c.w (wordAt win (c.m - 1)) 3
      xorW c.w (xorW c.w (xorW c.w u (wordAt win 0)) (rorW c.w u 1)) (simonConst c i) := rfl

/-- The first round keys: RK[0] for SPECK, RK[0..m-1] for SIMON, and no others (R162, R166). -/
theorem wordAt_firstRoundKeys {c : Cfg} (hm : c.m ≤ 4) (win : Vector Word 4) (rk : Vector Word 69)
    (j : Nat) :
    wordAt (firstRoundKeys c win rk) j =
      if j < firstKeyCount c then wordAt win j else wordAt rk j := by
  unfold firstRoundKeys firstKeyCount
  cases c.family with
  | speck =>
    simp only [wordAt_setWord]
    by_cases h : j = 0
    · subst h; simp
    · rw [if_neg (by omega), if_neg (by omega)]
  | simon =>
    have key : ∀ n, n ≤ 4 →
        wordAt (forUp (fun j rk => setWord rk j (wordAt win j)) n rk) j =
          if j < n then wordAt win j else wordAt rk j := by
      intro n
      induction n with
      | zero => intro _; simp
      | succ n ih =>
        intro hn
        rw [forUp_succ, wordAt_setWord, ih (by omega)]
        by_cases h : n = j
        · subst h; rw [if_pos ⟨rfl, by omega⟩, if_pos (by omega)]
        · rw [if_neg (by omega)]
          by_cases h' : j < n
          · rw [if_pos h', if_pos (by omega)]
          · rw [if_neg h', if_neg (by omega)]
    exact key c.m hm

/-- How far a schedule has come: `k` after `i` steps from `k0` (R166): the window and the round keys. -/
def scheduleAfter (c : Cfg) (k0 : Schedule) (i : Nat) : Schedule := forUp (scheduleStep c) i k0

theorem scheduleAfter_succ (c : Cfg) (k0 : Schedule) (i : Nat) :
    scheduleAfter c k0 (i + 1) = scheduleStep c i (scheduleAfter c k0 i) := rfl

/-- SPECK: after i steps RK[j] is WIN[0] as it was after j steps, for j from 1 to i; the other round keys are
untouched (R166). -/
theorem speck_rk {c : Cfg} (hf : c.family = .speck) (k0 : Schedule) {i : Nat} (hi : i < 69)
    (j : Nat) :
    wordAt (scheduleAfter c k0 i).rk j =
      if 1 ≤ j ∧ j ≤ i then wordAt (scheduleAfter c k0 j).win 0 else wordAt k0.rk j := by
  induction i with
  | zero => rw [if_neg (by omega)]; rfl
  | succ i ih =>
    rw [scheduleAfter_succ, scheduleStep_speck hf]
    simp only [wordAt_setWord]
    rw [ih (by omega)]
    by_cases h : i + 1 = j
    · subst h
      rw [if_pos ⟨rfl, hi⟩, if_pos (by omega), scheduleAfter_succ, scheduleStep_speck hf]
    · rw [if_neg (by omega)]
      by_cases h' : 1 ≤ j ∧ j ≤ i
      · rw [if_pos h', if_pos (by omega)]
      · rw [if_neg h', if_neg (by omega)]

/-- SPECK: a window word moves down by one at each step until it is WIN[1] (R163). -/
theorem speck_window_moves {c : Cfg} (hf : c.family = .speck) (hm : c.m ≤ 4) (k0 : Schedule)
    (i n : Nat) {j : Nat} (hj : 1 ≤ j) (hjn : j + n < c.m) :
    wordAt (scheduleAfter c k0 (i + n)).win j = wordAt (scheduleAfter c k0 i).win (j + n) := by
  induction n generalizing j with
  | zero => rfl
  | succ n ih =>
    rw [← Nat.add_assoc, scheduleAfter_succ, scheduleStep_speck hf]
    simp only
    rw [wordAt_speckStep _ _ _ (by omega), if_neg (by omega), if_pos (by omega), ih (by omega) (by omega),
      show j + 1 + n = j + (n + 1) by omega]

/-- SIMON: after i steps WIN[j] is RK[i+j], and RK[0..m+i-1] are final; the other round keys are untouched
(R166). -/
theorem simon_rk_stable {c : Cfg} (hf : c.family = .simon) (k0 : Schedule) {i n j : Nat}
    (hj : j < c.m + i ∨ c.m + i + n ≤ j) :
    wordAt (scheduleAfter c k0 (i + n)).rk j = wordAt (scheduleAfter c k0 i).rk j := by
  induction n with
  | zero => rfl
  | succ n ih =>
    rw [← Nat.add_assoc, scheduleAfter_succ, scheduleStep_simon hf]
    simp only
    rw [wordAt_setWord_other _ (by omega), ih (by omega)]

theorem simon_window {c : Cfg} (hf : c.family = .simon) (hm : c.m ≤ 4) (k0 : Schedule)
    (h0 : ∀ j, j < c.m → wordAt k0.win j = wordAt k0.rk j) {i : Nat} (hi : c.m + i ≤ 69) {j : Nat}
    (hj : j < c.m) :
    wordAt (scheduleAfter c k0 i).win j = wordAt (scheduleAfter c k0 i).rk (i + j) := by
  induction i generalizing j with
  | zero => rw [Nat.zero_add]; exact h0 j hj
  | succ i ih =>
    rw [scheduleAfter_succ, scheduleStep_simon hf]
    simp only
    rw [wordAt_setWord]
    by_cases h : j + 1 < c.m
    · rw [if_neg (by omega), wordAt_simonStep _ _ _ (by omega), if_pos h, ih (by omega) h,
        show i + (j + 1) = i + 1 + j by omega]
    · rw [if_pos ⟨by omega, by omega⟩, show c.m - 1 = j by omega]

/-- SPECK: the slots at and above m keep their contents (R31, R161). -/
theorem speck_upper_window {c : Cfg} (hf : c.family = .speck) (hm : 1 ≤ c.m) (k0 : Schedule) (i : Nat)
    {j : Nat} (hj : c.m ≤ j) (hj4 : j < 4) :
    wordAt (scheduleAfter c k0 i).win j = wordAt k0.win j := by
  induction i with
  | zero => rfl
  | succ i ih =>
    rw [scheduleAfter_succ, scheduleStep_speck hf]
    simp only
    rw [wordAt_speckStep _ _ _ hj4, if_neg (by omega), if_neg (by omega), if_neg (by omega), ih]

/-- SIMON: the slots at and above m keep their contents (R31, R161). -/
theorem simon_upper_window {c : Cfg} (hf : c.family = .simon) (k0 : Schedule) (i : Nat)
    {j : Nat} (hj : c.m ≤ j) (hj4 : j < 4) :
    wordAt (scheduleAfter c k0 i).win j = wordAt k0.win j := by
  induction i with
  | zero => rfl
  | succ i ih =>
    rw [scheduleAfter_succ, scheduleStep_simon hf]
    simp only
    rw [wordAt_simonStep _ _ _ hj4, if_neg (by omega), if_neg (by omega), ih]

theorem runSchedule_eq (c : Cfg) (keybuf : Vector Byte 32) (k : Schedule) :
    runSchedule c keybuf k = scheduleAfter c (scheduleStart c keybuf k) (scheduleSteps c) := rfl

theorem firstKeyCount_speck {c : Cfg} (hf : c.family = .speck) : firstKeyCount c = 1 := by
  unfold firstKeyCount; rw [hf]

theorem firstKeyCount_simon {c : Cfg} (hf : c.family = .simon) : firstKeyCount c = c.m := by
  unfold firstKeyCount; rw [hf]

theorem scheduleSteps_speck {c : Cfg} (hf : c.family = .speck) : scheduleSteps c = c.T - 1 := by
  unfold scheduleSteps; rw [hf]

theorem scheduleSteps_simon {c : Cfg} (hf : c.family = .simon) : scheduleSteps c = c.T - c.m := by
  unfold scheduleSteps; rw [hf]

/-- The first round keys and one more for each step are the T round keys (R167). -/
theorem firstKeyCount_add_scheduleSteps {c : Cfg} (hc : c.Legal) :
    firstKeyCount c + scheduleSteps c = c.T ∧ 0 < scheduleSteps c ∧ scheduleSteps c < 69 := by
  obtain ⟨hm2, hm4, ht, ht'⟩ := legal_ranges hc
  cases hf : c.family with
  | speck => rw [firstKeyCount_speck hf, scheduleSteps_speck hf]; omega
  | simon => rw [firstKeyCount_simon hf, scheduleSteps_simon hf]; omega

/-- The start of a schedule leaves w-words in the window and in the first round keys (R35). -/
theorem scheduleStart_words {c : Cfg} (hc : c.Legal) (keybuf : Vector Byte 32) (k : Schedule) :
    WindowIsWords c (scheduleStart c keybuf k).win ∧
    RoundKeysAreWords c (scheduleStart c keybuf k).rk (firstKeyCount c) := by
  obtain ⟨hm2, hm4, -, -⟩ := legal_ranges hc
  have hwin : WindowIsWords c (loadWindow c keybuf k.win) := by
    intro j hj
    rw [wordAt_loadWindow _ _ _ (by omega), if_pos hj]
    exact isWord_unpack hc.1 _ _
  refine ⟨hwin, fun j hj => ?_⟩
  have hle : firstKeyCount c ≤ c.m := by unfold firstKeyCount; split <;> omega
  simp only [scheduleStart]
  rw [wordAt_firstRoundKeys hm4, if_pos hj]
  exact hwin j (by omega)

/-- A key step makes w-words of w-words, in the window and in the round keys it has reached (R35). -/
theorem scheduleStep_words {c : Cfg} (hc : c.Legal) {i : Nat} {k : Schedule}
    (hi : firstKeyCount c + i < 69) (hwin : WindowIsWords c k.win)
    (hrk : RoundKeysAreWords c k.rk (firstKeyCount c + i)) :
    WindowIsWords c (scheduleStep c i k).win ∧
    RoundKeysAreWords c (scheduleStep c i k).rk (firstKeyCount c + (i + 1)) := by
  obtain ⟨hm2, hm4, -, -⟩ := legal_ranges hc
  have hw := (legal_amounts hc).2.1
  cases hf : c.family with
  | speck =>
    rw [firstKeyCount_speck hf] at *
    have hwin' : WindowIsWords c (speckStep c i k.win) := by
      intro j hj
      rw [wordAt_speckStep _ _ _ (by omega)]
      split
      · exact isWord_xorW hw _ _
      · split
        · exact hwin _ (by omega)
        · rw [if_pos (by omega)]; exact isWord_xorW hw _ _
    rw [scheduleStep_speck hf]
    refine ⟨hwin', fun j hj => ?_⟩
    simp only [wordAt_setWord]
    split
    · exact hwin' 0 (by omega)
    · exact hrk j (by omega)
  | simon =>
    rw [firstKeyCount_simon hf] at *
    have hwin' : WindowIsWords c (simonStep c i k.win) := by
      intro j hj
      rw [wordAt_simonStep _ _ _ (by omega)]
      split
      · exact hwin _ (by omega)
      · rw [if_pos (by omega)]; exact isWord_xorW hw _ _
    rw [scheduleStep_simon hf]
    refine ⟨hwin', fun j hj => ?_⟩
    simp only [wordAt_setWord]
    split
    · exact hwin' _ (by omega)
    · exact hrk j (by omega)

/-- A key step leaves w-words in every round key that held one (R35). -/
theorem scheduleStep_keeps_words {c : Cfg} (hc : c.Legal) {i n : Nat} {k : Schedule}
    (hrk : RoundKeysAreWords c k.rk n) :
    RoundKeysAreWords c (scheduleStep c i k).rk n := by
  obtain ⟨hm2, hm4, -, -⟩ := legal_ranges hc
  have hw := (legal_amounts hc).2.1
  intro j hj
  cases hf : c.family with
  | speck =>
    rw [scheduleStep_speck hf]
    simp only [wordAt_setWord]
    split
    · rw [wordAt_speckStep _ _ _ (by omega), if_pos rfl]
      exact isWord_xorW hw _ _
    · exact hrk j hj
  | simon =>
    rw [scheduleStep_simon hf]
    simp only [wordAt_setWord]
    split
    · rw [wordAt_simonStep _ _ _ (by omega), if_neg (by omega), if_pos (by omega)]
      exact isWord_xorW hw _ _
    · exact hrk j hj

/-- The first round keys leave w-words in every round key that held one (R35). -/
theorem scheduleStart_keeps_words {c : Cfg} (hc : c.Legal) (keybuf : Vector Byte 32) {n : Nat}
    {k : Schedule} (hrk : RoundKeysAreWords c k.rk n) :
    RoundKeysAreWords c (scheduleStart c keybuf k).rk n := by
  have hm4 := (legal_ranges hc).2.1
  intro j hj
  have h1 := (scheduleStart_words hc keybuf k).2
  by_cases h : j < firstKeyCount c
  · exact h1 j h
  · simp only [scheduleStart]
    rw [wordAt_firstRoundKeys hm4, if_neg h]
    exact hrk j hj

/-- The first i steps of a schedule leave w-words (R35). -/
theorem scheduleAfter_words {c : Cfg} (hc : c.Legal) (keybuf : Vector Byte 32) (k : Schedule)
    {i : Nat} (hi : i ≤ scheduleSteps c) :
    WindowIsWords c (scheduleAfter c (scheduleStart c keybuf k) i).win ∧
    RoundKeysAreWords c (scheduleAfter c (scheduleStart c keybuf k) i).rk (firstKeyCount c + i) := by
  obtain ⟨hs, -, -⟩ := firstKeyCount_add_scheduleSteps hc
  have ht := (legal_ranges hc).2.2.2
  induction i with
  | zero => exact scheduleStart_words hc keybuf k
  | succ i ih =>
    obtain ⟨h1, h2⟩ := ih (by omega)
    exact scheduleStep_words hc (by omega) h1 h2

/-- The whole schedule is T w-words (R35). -/
theorem runSchedule_words {c : Cfg} (hc : c.Legal) (keybuf : Vector Byte 32) (k : Schedule) :
    RoundKeysAreWords c (runSchedule c keybuf k).rk c.T := by
  have h := (scheduleAfter_words hc keybuf k (Nat.le_refl _)).2
  rwa [(firstKeyCount_add_scheduleSteps hc).1] at h

/-- Schedules that agree on the window slots below m and on the round keys written so far agree on one round
key more after a step (R169). -/
theorem scheduleStep_congr {c : Cfg} (hm2 : 2 ≤ c.m) (hm4 : c.m ≤ 4) {i : Nat} {k k' : Schedule}
    (hwin : ∀ j, j < c.m → wordAt k.win j = wordAt k'.win j)
    (hrk : ∀ j, j < firstKeyCount c + i → wordAt k.rk j = wordAt k'.rk j) :
    (∀ j, j < c.m → wordAt (scheduleStep c i k).win j = wordAt (scheduleStep c i k').win j) ∧
    (∀ j, j < firstKeyCount c + (i + 1) →
      wordAt (scheduleStep c i k).rk j = wordAt (scheduleStep c i k').rk j) := by
  cases hf : c.family with
  | speck =>
    rw [firstKeyCount_speck hf] at *
    have hx : speckX c i k.win = speckX c i k'.win := by
      rw [speckX, speckX, hwin 0 (by omega), hwin 1 (by omega)]
    have hwin' : ∀ j, j < c.m → wordAt (speckStep c i k.win) j = wordAt (speckStep c i k'.win) j := by
      intro j hj
      rw [wordAt_speckStep _ _ _ (by omega), wordAt_speckStep _ _ _ (by omega), hx, hwin 0 (by omega)]
      by_cases h : j + 1 < c.m
      · rw [hwin _ h, hwin j hj]
      · rw [if_neg h, if_neg h, hwin j hj]
    rw [scheduleStep_speck hf, scheduleStep_speck hf]
    refine ⟨hwin', fun j hj => ?_⟩
    simp only [wordAt_setWord, hwin' 0 (by omega)]
    split
    · rfl
    · by_cases h : j < 1 + i
      · exact hrk j h
      · rw [wordAt_of_ge _ (by omega), wordAt_of_ge _ (by omega)]
  | simon =>
    rw [firstKeyCount_simon hf] at *
    have hx : simonNewWord c i k.win = simonNewWord c i k'.win := by
      rw [simonNewWord, simonNewWord, hwin 0 (by omega), hwin 1 (by omega),
        hwin _ (show c.m - 1 < c.m by omega)]
    have hwin' : ∀ j, j < c.m → wordAt (simonStep c i k.win) j = wordAt (simonStep c i k'.win) j := by
      intro j hj
      rw [wordAt_simonStep _ _ _ (by omega), wordAt_simonStep _ _ _ (by omega), hx]
      by_cases h : j + 1 < c.m
      · rw [hwin _ h, hwin j hj]
      · rw [if_neg h, if_neg h, hwin j hj]
    rw [scheduleStep_simon hf, scheduleStep_simon hf]
    refine ⟨hwin', fun j hj => ?_⟩
    simp only [wordAt_setWord, hwin' _ (show c.m - 1 < c.m by omega)]
    split
    · rfl
    · by_cases h : j < c.m + i
      · exact hrk j h
      · rw [wordAt_of_ge _ (by omega), wordAt_of_ge _ (by omega)]

/-- The round keys of a schedule depend on the configuration and on KEYBUF[0..m*wb-1] only (R169). -/
theorem runSchedule_congr {c : Cfg} (hc : c.Legal) {b b' : Vector Byte 32} (k k' : Schedule)
    (hkey : ∀ i, i < c.m * c.wb → byteAt b i = byteAt b' i) {j : Nat} (hj : j < c.T) :
    wordAt (runSchedule c b k).rk j = wordAt (runSchedule c b' k').rk j := by
  obtain ⟨hm2, hm4, ht, ht'⟩ := legal_ranges hc
  have hld : ∀ j, j < c.m → wordAt (loadWindow c b k.win) j = wordAt (loadWindow c b' k'.win) j := by
    intro j hj
    rw [wordAt_loadWindow _ _ _ (by omega), wordAt_loadWindow _ _ _ (by omega), if_pos hj, if_pos hj]
    refine unpack_congr fun i hi => hkey _ ?_
    calc j * c.wb + i < j * c.wb + c.wb := by omega
      _ = (j + 1) * c.wb := by rw [Nat.succ_mul]
      _ ≤ c.m * c.wb := Nat.mul_le_mul_right _ hj
  have h := forUp_related (fun i (x y : Schedule) => (∀ j, j < c.m → wordAt x.win j = wordAt y.win j) ∧ (∀ j, j < firstKeyCount c + i → wordAt x.rk j = wordAt y.rk j))
    (f := scheduleStep c) (g := scheduleStep c) (a := scheduleStart c b k) (b := scheduleStart c b' k') (n := scheduleSteps c)
    ⟨hld, by
      intro j hj
      have hle : firstKeyCount c ≤ c.m := by unfold firstKeyCount; split <;> omega
      simp only [scheduleStart]
      rw [wordAt_firstRoundKeys hm4, wordAt_firstRoundKeys hm4, if_pos (by omega), if_pos (by omega), hld j (by omega)]⟩
    (fun i x y hi h => scheduleStep_congr hm2 hm4 h.1 h.2)
  exact h.2 j (by rw [(firstKeyCount_add_scheduleSteps hc).1]; exact hj)

end Sys2Proof.Machine
end

