-- ==== Sys2Proof/Laws/Sequencer.lean ====
section
/-! SUPPORT. Laws/Sequencer.lean: what an edge and a step can do, said once, and the edges of a command in
progress as a loop. -/

namespace Sys2Proof.Machine

/-- The command that starts the rounds of one direction. -/
def cipherCommand (d : Dir) (len : BitVec 6) : Instr :=
  match d with
  | .encrypt => .encrypt len
  | .decrypt => .decrypt len

theorem exec_cipherCommand (d : Dir) (len : BitVec 6) (s : State) :
    exec (cipherCommand d len) s = runCipher d len s := by
  cases d <;> rfl

theorem acceptEdge_cipherCommand (d : Dir) (len : BitVec 6) (s : State) :
    acceptEdge (cipherCommand d len) s =
      match checkCipher len s with
      | .ok => whenLegal s (startCipher d)
      | code => raise code s := by
  cases d <;> rfl

/-- Everything the accepting edge of a command can do: the whole command, or the start of a schedule or of
the rounds. -/
theorem acceptEdge_cases {i : Instr} {s t : State} (h : acceptEdge i s = .next t) :
    exec i s = .next t ∨
    (∃ len, i = .expand len ∧ checkExpand len s = .ok ∧ s.cfg.Legal ∧ t = startExpand s) ∨
    (∃ d len, i = cipherCommand d len ∧ checkCipher len s = .ok ∧ s.cfg.Legal ∧
      t = startCipher d s) := by
  cases i with
  | nop => exact .inl h
  | select v => exact .inl h
  | wkey k d => exact .inl h
  | win k d => exact .inl h
  | read a => exact .inl h
  | clrerr => exact .inl h
  | sreset => exact .inl h
  | expand len =>
    simp only [acceptEdge] at h
    by_cases hc : checkExpand len s = .ok
    · rw [hc] at h
      obtain ⟨hl, rfl⟩ := whenLegal_eq_next.mp h
      exact .inr (.inl ⟨len, rfl, hc, hl, rfl⟩)
    · refine .inl (execExpand_eq_next.mpr (.inl ⟨hc, ?_⟩))
      split at h
      · next e => exact absurd e hc
      · exact raise_eq_next.mp h
  | encrypt len =>
    rw [show Instr.encrypt len = cipherCommand .encrypt len from rfl, acceptEdge_cipherCommand] at h
    by_cases hc : checkCipher len s = .ok
    · rw [hc] at h
      obtain ⟨hl, rfl⟩ := whenLegal_eq_next.mp h
      exact .inr (.inr ⟨.encrypt, len, rfl, hc, hl, rfl⟩)
    · refine .inl (runCipher_eq_next.mpr (.inl ⟨hc, ?_⟩))
      split at h
      · next e => exact absurd e hc
      · exact raise_eq_next.mp h
  | decrypt len =>
    rw [show Instr.decrypt len = cipherCommand .decrypt len from rfl, acceptEdge_cipherCommand] at h
    by_cases hc : checkCipher len s = .ok
    · rw [hc] at h
      obtain ⟨hl, rfl⟩ := whenLegal_eq_next.mp h
      exact .inr (.inr ⟨.decrypt, len, rfl, hc, hl, rfl⟩)
    · refine .inl (runCipher_eq_next.mpr (.inl ⟨hc, ?_⟩))
      split at h
      · next e => exact absurd e hc
      · exact raise_eq_next.mp h

/-- Everything an edge that accepts no command can do. -/
theorem seqEdge_cases {s t : State} (h : seqEdge s = .next t) :
    (s.seq = .idle ∧ t = { s with rspPending := none }) ∨
    (s.seq = .ksStep ∧ s.cfg.Legal ∧ t = ksStepEdge s) ∨
    (s.seq = .rfRound ∧ s.cfg.Legal ∧ t = rfRoundEdge s) ∨
    (s.seq = .rfPack ∧ s.cfg.Legal ∧ t = rfPackEdge s) := by
  unfold seqEdge at h
  split at h
  · next e => cases h; exact .inl ⟨e, rfl⟩
  · next e => obtain ⟨hl, rfl⟩ := whenLegal_eq_next.mp h; exact .inr (.inl ⟨e, hl, rfl⟩)
  · next e => obtain ⟨hl, rfl⟩ := whenLegal_eq_next.mp h; exact .inr (.inr (.inl ⟨e, hl, rfl⟩))
  · next e => obtain ⟨hl, rfl⟩ := whenLegal_eq_next.mp h; exact .inr (.inr (.inr ⟨e, hl, rfl⟩))

/-- Everything a rising edge can do. -/
theorem clockEdge_cases {p : Pins} {s t : State} (h : clockEdge p s = .next t) :
    (p.rst = true ∧ t = resetAll s) ∨
    (s.seq = .idle ∧ ∃ i, decode p.cmd = .command i ∧ acceptEdge i s = .next t) ∨
    (s.seq = .idle ∧ t = failed .illegalCommand s) ∨
    seqEdge s = .next t := by
  unfold clockEdge at h
  split at h
  · next e => cases h; exact .inl ⟨e, rfl⟩
  · split at h
    · next e =>
      have hs : s.seq = .idle := by
        simp only [cmdReady, Bool.and_eq_true, decide_eq_true_eq] at e
        exact e.2.1
      split at h
      · next i hd => exact .inr (.inl ⟨hs, i, hd, h⟩)
      · exact .inr (.inr (.inl ⟨hs, raise_eq_next.mp h⟩))
    · exact .inr (.inr (.inr h))

/-- Everything a step can do. -/
theorem step_cases {s t : State} (h : stepPort s = .next t) :
    (∃ rest, s.port = .reset :: rest ∧ t = resetAll { s with port := rest }) ∨
    (∃ c i rest, s.port = .command c :: rest ∧ s.seq = .idle ∧ decode c = .command i ∧
      exec i { s with port := rest } = .next t) ∨
    (∃ c rest, s.port = .command c :: rest ∧ s.seq = .idle ∧
      t = failed .illegalCommand { s with port := rest }) ∨
    (∃ port, seqEdge { s with port := port } = .next t) := by
  unfold stepPort at h
  split at h
  · next rest e => cases h; exact .inl ⟨rest, e, rfl⟩
  · next c rest e =>
    split at h
    · next hs =>
      unfold runWord at h
      split at h
      · next i hd => exact .inr (.inl ⟨c, i, rest, e, hs, hd, h⟩)
      · exact .inr (.inr (.inl ⟨c, rest, e, hs, raise_eq_next.mp h⟩))
    · exact .inr (.inr (.inr ⟨s.port, h⟩))
  · next rest e => exact .inr (.inr (.inr ⟨rest, h⟩))
  · exact .inr (.inr (.inr ⟨s.port, h⟩))

/-- The edges of a list are the edges of its first part, then those of the rest. -/
theorem clockEdges_append (ps qs : List Pins) (s : State) :
    clockEdges (ps ++ qs) s =
      match clockEdges ps s with
      | .next t => clockEdges qs t
      | .fault f => .fault f
      | .refused r => .refused r := by
  induction ps generalizing s with
  | nil => rfl
  | cons p ps ih =>
    simp only [List.cons_append, clockEdges]
    cases clockEdge p s with
    | next t => exact ih t
    | fault f => rfl
    | refused r => rfl

/-- With `rst` at 0 a busy block's edge is the sequencer's (R265). -/
theorem clockEdge_busy {p : Pins} {s : State} (hp : p.rst = false) (hs : s.seq ≠ .idle) :
    clockEdge p s = seqEdge s := by
  simp [clockEdge, hp, cmdReady, hs]

/-- An EXPAND in progress, accepted in state `s`, with n of its steps done (R170). -/
def ksProgress (s : State) (n : Nat) : State :=
  { startExpand s with
    win := (scheduleAfter s.cfg (scheduleStart s.cfg s.keybuf ⟨s.win, s.rk⟩) n).win
    rk := (scheduleAfter s.cfg (scheduleStart s.cfg s.keybuf ⟨s.win, s.rk⟩) n).rk
    rc := BitVec.ofNat 7 n }

theorem ksProgress_zero (s : State) : ksProgress s 0 = startExpand s := rfl

/-- A step edge of an EXPAND in progress does one step more (R170). -/
theorem ksStepEdge_ksProgress {s : State} {n : Nat} (hn : n < 128)
    (hlast : n + 1 ≠ scheduleSteps s.cfg) : ksStepEdge (ksProgress s n) = ksProgress s (n + 1) := by
  have hrc : (BitVec.ofNat 7 n).toNat = n := by rw [BitVec.toNat_ofNat]; omega
  have hinc : BitVec.ofNat 7 n + 1 = BitVec.ofNat 7 (n + 1) := by
    apply BitVec.eq_of_toNat_eq; simp
  simp only [ksStepEdge, ksProgress, startExpand, hrc, hinc, if_neg hlast, scheduleAfter_succ]

/-- The last step edge of an EXPAND in progress completes it with the whole schedule (R168, R170). -/
theorem ksStepEdge_last {s : State} {n : Nat} (hn : n < 128)
    (hlast : n + 1 = scheduleSteps s.cfg) :
    ksStepEdge (ksProgress s n) =
      expandDone (runSchedule s.cfg s.keybuf ⟨s.win, s.rk⟩) (scheduleSteps s.cfg) s := by
  have hrc : (BitVec.ofNat 7 n).toNat = n := by rw [BitVec.toNat_ofNat]; omega
  simp only [ksStepEdge, ksProgress, startExpand, hrc, if_pos hlast]
  rw [runSchedule_eq, ← hlast, scheduleAfter_succ]
  rfl

/-- The halves after the first n rounds of one direction (R202, R204). -/
def halvesAfter (s : State) (d : Dir) (n : Nat) : Halves :=
  forUp (roundAt s.cfg s.rk d) n (loadHalves s.cfg s.inbuf)

theorem halvesAfter_all (s : State) (d : Dir) :
    halvesAfter s d s.cfg.T = runRounds s.cfg s.rk d (loadHalves s.cfg s.inbuf) := by
  cases d with
  | encrypt => rfl
  | decrypt => rw [runRounds, forDown_eq_forUp]; rfl

/-- An ENCRYPT or DECRYPT in progress, accepted in state `s`, with n of its rounds done (R206). -/
def rfProgress (d : Dir) (s : State) (n : Nat) : State :=
  { startCipher d s with
    x := (halvesAfter s d n).x
    y := (halvesAfter s d n).y
    rc := BitVec.ofNat 7 n
    seq := if n = s.cfg.T then .rfPack else .rfRound }

theorem rfProgress_zero {d : Dir} {s : State} (h : s.cfg.T ≠ 0) :
    rfProgress d s 0 = startCipher d s := by
  simp only [rfProgress, if_neg (Ne.symm h)]
  rfl

/-- A round edge of a command in progress does one round more (R206). -/
theorem rfRoundEdge_rfProgress (d : Dir) (s : State) {n : Nat} (hn : n < 128) :
    rfRoundEdge (rfProgress d s n) = rfProgress d s (n + 1) := by
  have hrc : (BitVec.ofNat 7 n).toNat = n := by rw [BitVec.toNat_ofNat]; omega
  have hinc : BitVec.ofNat 7 n + 1 = BitVec.ofNat 7 (n + 1) := by
    apply BitVec.eq_of_toNat_eq; simp
  simp only [rfRoundEdge, rfProgress, startCipher, hrc, hinc, halvesAfter, forUp_succ]

/-- The pack edge completes the command with all its rounds (R205, R206). -/
theorem rfPackEdge_rfProgress (d : Dir) (s : State) :
    rfPackEdge (rfProgress d s s.cfg.T) =
      cipherDone d (runRounds s.cfg s.rk d (loadHalves s.cfg s.inbuf)) s := by
  rw [← halvesAfter_all]
  rfl

end Sys2Proof.Machine
end

