-- ==== Sys2Proof/Tests/Slice0.lean ====
section
/-! SUPPORT. Tests/Slice0.lean: small tests whose expected results are written out from the spec, and one
witness for the hypotheses of every obligation that has any. -/

namespace Sys2Proof.Tests

open Sys2Proof.Machine

-- Helpers

/-- The state of a next outcome; the reset state for any other. -/
def stateOf : Result → State
  | .next t => t
  | .fault _ => State.reset
  | .refused _ => State.reset

/-- The state one command leaves. -/
def after (i : Instr) (s : State) : State := stateOf (exec i s)

/-- The state a list of commands leaves. -/
def afterAll : List Instr → State → State
  | [], s => s
  | i :: rest, s => afterAll rest (after i s)

/-- The response word of a state, 0xFFFF (a code no command gives) where there is none. -/
def rsp (s : State) : BitVec 16 := s.rspPending.getD 0xFFFF#16

/-- A buffer that starts with the given bytes. -/
def bytes (n : Nat) (bs : List Nat) : Vector Byte n := Vector.ofFn fun i => BitVec.ofNat 8 (bs.getD i.val 0)

/-- The first `n` bytes of OUTBUF. -/
def outBytes (n : Nat) (s : State) : List Nat := (s.outbuf.toList.take n).map BitVec.toNat

/-- A variant selected from reset. -/
def selected (vidx : BitVec 4) : State := after (.select vidx) State.reset

/-- A variant with a key schedule. -/
def keyed (vidx : BitVec 4) (len : BitVec 6) (key : List Nat) : State :=
  after (.expand len) { selected vidx with keybuf := bytes 32 key }

/-- A variant with a key schedule and a block to work on. -/
def loaded (vidx : BitVec 4) (len : BitVec 6) (key block : List Nat) : State :=
  { keyed vidx len key with inbuf := bytes 16 block }

/-- The default ROM with another word in slot 14 (95_test_vectors.md V6). -/
def withSlot14 (d : BitVec 34) : State :=
  { State.reset with roms := { romsDefault with drom := romsDefault.drom.set 14 d } }

/-- The key bytes of the source's example (95_test_vectors.md E1). -/
def keyE1 : List Nat := [0x00, 0x01, 0x08, 0x09, 0x10, 0x11, 0x18, 0x19]

/-- A configuration of word width `w` only, for the packing tests. -/
def cfgW (w : BitVec 7) : Cfg := { Cfg.reset with wbits := w }

-- WellFormed: each check of R91 and R92 refuses an ill-formed line and accepts the boundary

theorem test_wellFormed_select : SourceCommand.wellFormed (.select 16) = false ∧
    SourceCommand.wellFormed (.select 15) = true := by decide

theorem test_wellFormed_wkey : SourceCommand.wellFormed (.wkey 32 0) = false ∧
    SourceCommand.wellFormed (.wkey 0 256) = false ∧
    SourceCommand.wellFormed (.wkey 31 255) = true := by decide

theorem test_wellFormed_win : SourceCommand.wellFormed (.win 16 0) = false ∧
    SourceCommand.wellFormed (.win 0 256) = false ∧
    SourceCommand.wellFormed (.win 15 255) = true := by decide

theorem test_wellFormed_len : SourceCommand.wellFormed (.expand 64) = false ∧
    SourceCommand.wellFormed (.encrypt 64) = false ∧
    SourceCommand.wellFormed (.decrypt 64) = false ∧
    SourceCommand.wellFormed (.expand 63) = true := by decide

theorem test_wellFormed_read : SourceCommand.wellFormed (.read 256) = false ∧
    SourceCommand.wellFormed (.read 255) = true := by decide

theorem test_wellFormed_word : SourceCommand.wellFormed (.word 0x100000000) = false ∧
    SourceCommand.wellFormed (.word 0xFFFFFFFF) = true := by decide

theorem test_wellFormed_wkeys : SourceCommand.wellFormed (.wkeys (List.replicate 33 0)) = false ∧
    SourceCommand.wellFormed (.wkeys [256]) = false ∧
    SourceCommand.wellFormed (.wkeys (List.replicate 32 255)) = true := by decide

theorem test_wellFormed_wins : SourceCommand.wellFormed (.wins (List.replicate 17 0)) = false ∧
    SourceCommand.wellFormed (.wins [256]) = false ∧
    SourceCommand.wellFormed (.wins (List.replicate 16 255)) = true := by decide

theorem test_wellFormed_readout : SourceCommand.wellFormed (.readout 17) = false ∧
    SourceCommand.wellFormed (.readout 16) = true := by decide

theorem test_wellFormed_loadkey : SourceCommand.wellFormed (.loadkey (List.replicate 33 0)) = false ∧
    SourceCommand.wellFormed (.loadkey [256]) = false ∧
    SourceCommand.wellFormed (.loadkey (List.replicate 32 255)) = true := by decide

-- Decode: the words of 95_test_vectors.md V6, and fields written out bit by bit from R80-R85

theorem test_decode_nop : decode 0x00000000#32 = .command .nop ∧
    decode 0x00000001#32 = .illegal (.reservedBits "NOP") ∧
    decode 0x0FFFFFFF#32 = .illegal (.reservedBits "NOP") := by decide

theorem test_decode_select :
    decode 0b0001_0000000000000000000000000111#32 = .command (.select 7) ∧
    decode 0x10000010#32 = .illegal (.reservedBits "SELECT") := by decide

theorem test_decode_wkey :
    decode 0b0010_000000000000000_11111_01010101#32 = .command (.wkey 31 0x55) ∧
    decode 0x20002000#32 = .illegal (.reservedBits "WKEY") := by decide

theorem test_decode_win :
    decode 0b0011_0000000000000000_1111_00000001#32 = .command (.win 15 0x01) ∧
    decode 0x30001000#32 = .illegal (.reservedBits "WIN") := by decide

theorem test_decode_expand :
    decode 0b0100_0000000000000000000000_001000#32 = .command (.expand 8) ∧
    decode 0x40000040#32 = .illegal (.reservedBits "EXPAND") := by decide

theorem test_decode_encrypt :
    decode 0b0101_0000000000000000000000_000100#32 = .command (.encrypt 4) ∧
    decode 0x50000044#32 = .illegal (.reservedBits "ENCRYPT") := by decide

theorem test_decode_decrypt :
    decode 0b0110_0000000000000000000000_000100#32 = .command (.decrypt 4) ∧
    decode 0x60000040#32 = .illegal (.reservedBits "DECRYPT") := by decide

theorem test_decode_read :
    decode 0b0111_00000000000000000000_11111111#32 = .command (.read 0xFF) ∧
    decode 0x70000100#32 = .illegal (.reservedBits "READ") := by decide

theorem test_decode_clrerr : decode 0x80000000#32 = .command .clrerr ∧
    decode 0x80000001#32 = .illegal (.reservedBits "CLRERR") := by decide

theorem test_decode_sreset : decode 0x90000000#32 = .command .sreset ∧
    decode 0x90000100#32 = .illegal (.reservedBits "SRESET") := by decide

theorem test_decode_reserved_opcodes : decode 0xA0000000#32 = .illegal .reservedOpcode ∧
    decode 0xF0000000#32 = .illegal .reservedOpcode := by decide

theorem test_decodeTableWord : decodeTableWord 32 0x20001F55 = some (.wkey 31 0x55) ∧
    decodeTableWord 32 0xA0000000 = none := by decide

theorem test_assemble : assembleText "WKEY 31,0x55".toList = some [0x20001F55#32] ∧
    assembleText "LOADKEY 1, 2".toList = some [0x20000001#32, 0x20000102#32, 0x40000002#32] ∧
    assembleText "SELECT 16".toList = none := by decide

-- Word arithmetic and packing: 95_test_vectors.md V1 and V2

theorem test_rotations : rolW 16 0x8003#64 1 = 0x0007#64 ∧ rorW 16 0x8003#64 1 = 0xC001#64 ∧
    rolW 24 0x800003#64 23 = 0xC00001#64 ∧ rorW 48 0x800000000003#64 8 = 0x038000000000#64 ∧
    rolW 64 0x8000000000000003#64 64 = 0x8000000000000003#64 := by decide

theorem test_add_sub : addW 24 0xFFFFFF#64 1 = 0 ∧ addW 64 0xFFFFFFFFFFFFFFFF#64 0xFFFFFFFFFFFFFFFF#64 =
      0xFFFFFFFFFFFFFFFE#64 ∧ subW 48 0 1 = 0xFFFFFFFFFFFF#64 ∧ subW 16 1 2 = 0xFFFF#64 := by decide

theorem test_unpack :
    unpack (cfgW 24) (bytes 16 [0x11, 0x12, 0x13, 0x14, 0x15, 0x16]) 1 = 0x161514#64 ∧
    unpack (cfgW 64) (bytes 16 [0x11, 0x12, 0x13, 0x14, 0x15, 0x16, 0x17, 0x18]) 0 =
      0x1817161514131211#64 := by decide

theorem test_pack :
    pack (cfgW 48) (bytes 16 []) 0 0x456789ABCDEF#64 =
      bytes 16 [0xEF, 0xCD, 0xAB, 0x89, 0x67, 0x45] := by decide

-- Rounds: R188 and 95_test_vectors.md V3

theorem test_speck_rounds :
    speckRound 16 7 2 0x0003#64 ⟨0x0001#64, 0x0002#64⟩ = ⟨0x0201#64, 0x0209#64⟩ ∧
    speckRound 16 7 2 0xFFFF#64 ⟨0xFFFF#64, 0xFFFF#64⟩ = ⟨0x0001#64, 0xFFFE#64⟩ ∧
    speckInv 16 7 2 0xFFFF#64 ⟨0x0001#64, 0xFFFE#64⟩ = ⟨0xFFFF#64, 0xFFFF#64⟩ ∧
    speckRound 48 8 3 0x2D3C4B5A6978#64 ⟨0x456789ABCDEF#64, 0xBA9876543210#64⟩ =
      ⟨0x84E19687B4A5#64, 0x502224262420#64⟩ := by decide

theorem test_simon_rounds :
    simonRound 16 0x0003#64 ⟨0x0001#64, 0x0002#64⟩ = ⟨0x0005#64, 0x0001#64⟩ ∧
    simonRound 16 0x0000#64 ⟨0x0000#64, 0xFFFF#64⟩ = ⟨0xFFFF#64, 0x0000#64⟩ ∧
    simonInv 16 0x0003#64 ⟨0x0005#64, 0x0001#64⟩ = ⟨0x0001#64, 0x0002#64⟩ ∧
    simonRound 24 0x5A6978#64 ⟨0xABCDEF#64, 0x543210#64⟩ = ⟨0xE4E75D#64, 0xABCDEF#64⟩ := by decide

-- The catalog and SELECT: R141, R144, 95_test_vectors.md V6

/-- Slot 0 of the ZROM starts with the published bits 1111101000..., its bit k at ROM bit k (R144). -/
theorem test_zrom_bit_order :
    (List.range 12).map (fun k => romsDefault.zrom[0].getLsbD k) =
      [true, true, true, true, true, false, true, false, false, false, true, false] := by decide

theorem test_select_speck : (selected 7).cfg = ⟨7, .speck, 16, 4, 22, 7, 2, 0⟩ ∧
    rsp (selected 7) = 0x0000#16 := by decide

theorem test_select_checks :
    rsp (after (.select 14) State.reset) = 0x0100#16 ∧
    rsp (after (.select 14) (withSlot14 0x004816843#34)) = 0x0400#16 ∧
    rsp (after (.select 14) (withSlot14 0x004396853#34)) = 0x0100#16 ∧
    rsp (after (.select 14) (withSlot14 0x0043C6843#34)) = 0x0100#16 ∧
    rsp (after (.select 14) (withSlot14 0x280020841#34)) = 0x0100#16 ∧
    rsp (after (.select 14) (withSlot14 0x01E796843#34)) = 0x0000#16 := by decide

-- The buffers and the read window: 95_test_vectors.md V2, V6, P3

theorem test_wkey : byteAt (after (.wkey 31 0x55) State.reset).keybuf 31 = 0x55#8 ∧
    byteAt (after (.wkey 31 0x55) State.reset).keybuf 30 = 0x00#8 := by decide

theorem test_win : byteAt (after (.win 15 0x01) State.reset).inbuf 15 = 0x01#8 ∧
    byteAt (after (.win 15 0x01) State.reset).keybuf 15 = 0x00#8 := by decide

/-- The read window of Speck 64/32 after SELECT 7, at every address that reads a register (R65). -/
theorem test_read :
    [0x10#8, 0x11#8, 0x12#8, 0x13#8, 0x14#8, 0x15#8, 0x16#8, 0x17#8, 0x18#8, 0x19#8, 0x1A#8, 0x1B#8,
      0x1C#8, 0xFF#8].map (fun a => rsp (after (.read a) (selected 7))) =
    [0x0001#16, 0x0000#16, 0x0007#16, 0x0001#16, 0x0010#16, 0x0004#16, 0x0016#16, 0x0007#16, 0x0002#16,
      0x0002#16, 0x0053#16, 0x0001#16, 0x0000#16, 0x0000#16] := by decide

/-- READ after P3's row 10: ERR and CFG_VALID are set, KEY_VALID is not, ERRCODE is the last failure. -/
theorem test_read_status :
    rsp (after (.read 0x10) (stateOf (execIllegal (selected 3)))) = 0x0005#16 ∧
    rsp (after (.read 0x11) (stateOf (execIllegal (selected 3)))) = 0x0006#16 := by decide

theorem test_clrerr :
    rsp (after (.read 0x10) (after .clrerr (stateOf (execIllegal (selected 3))))) = 0x0001#16 := by
  decide

theorem test_nop : after .nop (selected 7) = selected 7 := by decide

theorem test_sreset : (after .sreset (selected 7)).cfgValid = false ∧
    (after .sreset (selected 7)).cfg.wbits = 0 ∧ rsp (after .sreset (selected 7)) = 0x0000#16 ∧
    (after .sreset (selected 7)).roms = romsDefault := by decide

-- EXPAND: R171 and 95_test_vectors.md V4.1, V4.2

theorem test_expand_speck :
    [0, 1, 2, 3, 21].map (wordAt (keyed 7 8 keyE1).rk) =
      [0x0100#64, 0x1512#64, 0x617D#64, 0x1458#64, 0xED64#64] ∧
    (keyed 7 8 keyE1).keybuf = bytes 32 [] ∧ (keyed 7 8 keyE1).keyValid = true := by
  decide +kernel

theorem test_expand_simon :
    [0, 3, 4, 5, 31].map (wordAt (keyed 0 8 keyE1).rk) =
      [0x0100#64, 0x1918#64, 0x71C3#64, 0xB649#64, 0x8D14#64] := by
  decide +kernel

-- ENCRYPT and DECRYPT: the published vectors of 95_test_vectors.md E2

theorem test_encrypt_speck :
    outBytes 16 (after (.encrypt 4) (loaded 7 8 keyE1 [0x4C, 0x69, 0x74, 0x65])) =
      [0xF2, 0x42, 0x68, 0xA8, 0, 0, 0, 0, 0, 0, 0, 0, 0, 0, 0, 0] := by
  decide +kernel

theorem test_encrypt_simon :
    outBytes 16 (after (.encrypt 4) (loaded 0 8 keyE1 [0x77, 0x68, 0x65, 0x65])) =
      [0xBB, 0xE9, 0x9B, 0xC6, 0, 0, 0, 0, 0, 0, 0, 0, 0, 0, 0, 0] := by
  decide +kernel

/-- Speck 96/96: w = 48 and m = 2. -/
theorem test_decrypt_speck :
    outBytes 16 (after (.decrypt 12)
      (loaded 10 12 [0x00, 0x01, 0x02, 0x03, 0x04, 0x05, 0x08, 0x09, 0x0A, 0x0B, 0x0C, 0x0D]
        [0xAA, 0x79, 0x8F, 0xDE, 0xBD, 0x62, 0x78, 0x71, 0xAB, 0x09, 0x4D, 0x9E])) =
      [0x20, 0x75, 0x73, 0x61, 0x67, 0x65, 0x2C, 0x20, 0x68, 0x6F, 0x77, 0x65, 0, 0, 0, 0] := by
  decide +kernel

/-- Simon 72/48: w = 24 and m = 3. -/
theorem test_decrypt_simon :
    outBytes 16 (after (.decrypt 6)
      (loaded 1 9 [0x00, 0x01, 0x02, 0x08, 0x09, 0x0A, 0x10, 0x11, 0x12]
        [0xAC, 0x2C, 0x29, 0xAC, 0xE5, 0xDA])) =
      [0x6C, 0x69, 0x6E, 0x67, 0x20, 0x61, 0, 0, 0, 0, 0, 0, 0, 0, 0, 0] := by
  decide +kernel

-- Errors: 95_test_vectors.md V6 and P3

theorem test_priorities :
    rsp (after (.encrypt 5) (selected 7)) = 0x0300#16 ∧
    rsp (after (.encrypt 4) (selected 7)) = 0x0500#16 ∧
    rsp (after (.expand 7) (selected 7)) = 0x0200#16 ∧
    rsp (after (.expand 8) State.reset) = 0x0100#16 ∧
    rsp (after (.decrypt 4) State.reset) = 0x0100#16 := by decide

/-- A word that is no command, issued straight after reset (V6). -/
theorem test_illegal :
    rsp (stateOf (step (presentWord 0xA0000000#32 State.reset))) = 0x0600#16 ∧
    (stateOf (step (presentWord 0xA0000000#32 State.reset))).err = true := by decide

-- Latencies: R270 and 95_test_vectors.md V7

theorem test_latencies :
    wordLatency 0x40000008#32 (selected 7) = 22 ∧
    wordLatency 0x40000018#32 (selected 5) = 67 ∧
    wordLatency 0x50000010#32 { selected 5 with keyValid := true } = 71 ∧
    wordLatency 0x40000007#32 (selected 7) = 1 ∧ wordLatency 0xA0000000#32 (selected 7) = 1 := by
  decide

-- Witnesses: for each obligation with hypotheses, a state and operands that meet them together

/-- Speck 64/32 with the schedule of the source's key and a block to encrypt. -/
def keyedSpeck : State := loaded 7 8 keyE1 [0x4C, 0x69, 0x74, 0x65]

/-- Simon 64/32 with a schedule and a block. -/
def keyedSimon : State := loaded 0 8 keyE1 [0x77, 0x68, 0x65, 0x65]

/-- An EXPAND in progress: the state after its accepting edge. -/
def expanding : State := stateOf (clockEdge ⟨false, true, 0x40000008#32⟩ (selected 7))

/-- A good state that is not the reset state: Speck 64/32 selected, an error recorded, secrets in the
buffers. -/
def goodState (secret : Nat) : State :=
  { failed .noSchedule (selected 7) with
    keybuf := bytes 32 [secret], inbuf := bytes 16 [secret] }

theorem selected_legal : (selected 7).cfg.Legal ∧ (selected 0).cfg.Legal ∧ (selected 5).cfg.Legal ∧
    (selected 13).cfg.Legal := ⟨by decide, by decide, by decide, by decide⟩

theorem goodState_inv (secret : Nat) : Inv (goodState secret) where
  selected := fun _ => selected_legal.1
  unselected := fun h => absurd (show true = false from h) (by decide)
  keyOfVariant := fun h => absurd (show false = true from h) (by decide)
  errClear := fun h => absurd (show true = false from h) (by decide)
  errSet := fun _ => by show IsErrorCode ResultCode.noSchedule.toByte; decide
  roundKeys := fun h => absurd (show false = true from h) (by decide)
  response := fun r h => by
    obtain rfl : 0x0500#16 = r := Option.some.inj h
    decide
  busyResponse := fun h => absurd (show (goodState secret).seq = .idle from rfl) h
  busyVariant := fun h => absurd (show (goodState secret).seq = .idle from rfl) h
  inSchedule := fun h => absurd (show Seq.idle = .ksStep from h) (by decide)
  inRounds := fun h => absurd (show Seq.idle = .rfRound from h) (by decide)
  inPack := fun h => absurd (show Seq.idle = .rfPack from h) (by decide)

theorem witness_EncodeOfDecodeIsTheWord : decode 0x20001F55#32 = .command (.wkey 31 0x55) := by decide

/-- Each clause at a word its row matches and, for the last, at a word no row matches. -/
theorem witness_OpcodeMapDecidesEveryWord :
    (∀ row ∈ opcodeTable, row.pattern &&& row.mask = row.pattern) ∧
    (⟨"WKEY", 0x20000000#32, 0xFFFFE000#32⟩ : OpcodeRow) ∈ opcodeTable ∧
    0x20001F55#32 &&& 0xFFFFE000#32 = 0x20000000#32 ∧
    (∀ row ∈ opcodeTable, 0x20002000#32 &&& row.mask ≠ row.pattern) := by decide

theorem witness_AssemblerAgreesWithTheEncoder :
    assemble (.loadkey [255, 1]) = some [0x200000FF#32, 0x20000101#32, 0x40000002#32] ∧
    assemble (.loadkey []) = some [0x40000000#32] ∧
    assemble (.wins (List.replicate 17 0)) = none := by decide

/-- Amounts 0 and w, at the narrowest and the widest word. -/
theorem witness_RotationsBitByBit :
    16 ∈ wordWidths ∧ IsWord 16 0x8003#64 ∧ 0 ≤ 16 ∧ 16 ≤ 16 ∧
    64 ∈ wordWidths ∧ IsWord 64 0x8000000000000003#64 ∧ 64 ≤ 64 := by decide

theorem witness_RotationsUndoEachOther :
    24 ∈ wordWidths ∧ IsWord 24 0xFFFFFF#64 ∧ 23 ≤ 24 := by decide

theorem witness_ArithmeticIsModularInTheWidth :
    48 ∈ wordWidths ∧ IsWord 48 0xFFFFFFFFFFFF#64 ∧ IsWord 48 0x1#64 ∧ IsWord 48 0x2#64 := by decide

theorem witness_OperatorsGiveWords :
    32 ∈ wordWidths ∧ IsWord 32 0xFFFFFFFF#64 ∧ IsWord 32 0x1#64 ∧ 32 ≤ 32 := by decide

/-- The last byte of a word, at the narrowest and the widest word. -/
theorem witness_UnpackIsLittleEndian :
    (cfgW 16).w ∈ wordWidths ∧ 1 < (cfgW 16).wb ∧ (cfgW 64).w ∈ wordWidths ∧ 7 < (cfgW 64).wb := by
  decide

/-- The last word a 32-byte buffer holds, its last byte, and the bytes on either side of word 1. -/
theorem witness_PackAndUnpackRoundTrip :
    (cfgW 64).w ∈ wordWidths ∧ 3 * (cfgW 64).wb + (cfgW 64).wb ≤ 32 ∧
    IsWord (cfgW 64).w 0xFFFFFFFFFFFFFFFF#64 ∧ 7 < (cfgW 64).wb ∧
    (7 < 1 * (cfgW 64).wb ∨ 1 * (cfgW 64).wb + (cfgW 64).wb ≤ 7) ∧
    (16 < 1 * (cfgW 64).wb ∨ 1 * (cfgW 64).wb + (cfgW 64).wb ≤ 16) := by decide

theorem witness_RoundsAndInversesCancel :
    16 ∈ wordWidths ∧ 7 < 16 ∧ 2 < 16 ∧ IsWord 16 0xFFFF#64 ∧ IsWord 16 0x8000#64 ∧
    IsWord 16 0x0003#64 := by decide

theorem witness_StepRunsTheDecodedCommand :
    (presentWord 0x10000007#32 State.reset).seq = .idle ∧
    (presentWord 0x10000007#32 State.reset).port = [.command 0x10000007#32] ∧
    decode 0x10000007#32 = .command (.select 7) := by decide

theorem witness_IllegalWordsFailInOneCycle :
    (presentWord 0xA0000000#32 State.reset).seq = .idle ∧
    decode 0xA0000000#32 = .illegal .reservedOpcode ∧
    (presentWord 0xA0000000#32 State.reset).port = [.command 0xA0000000#32] := by decide

theorem witness_IdleBlockHoldsItsState :
    (selected 7).seq = .idle ∧ (selected 7).port = [] ∧
    { selected 7 with port := [.idle] }.seq = .idle ∧
    { selected 7 with port := [.idle] }.port = [.idle] := by decide

/-- An EXPAND in progress while a word waits at the pins. -/
theorem witness_BusyBlockIgnoresTheCommandPort :
    { expanding with port := [.command 0#32] }.seq ≠ .idle ∧
    { expanding with port := [.command 0#32] }.port = [.command 0#32] ∧
    step { expanding with port := [.command 0#32] } =
      .next (stateOf (step { expanding with port := [.command 0#32] })) := ⟨by decide, by decide, rfl⟩

theorem witness_ResetsGiveTheResetValues :
    { expanding with port := [.reset] }.port = [.reset] := by decide

theorem witness_BufferWritesChangeOneByte :
    0 ≠ (31#5).toNat ∧ 31 ≠ (0#5).toNat ∧ 0 ≠ (15#4).toNat ∧ 15 ≠ (0#4).toNat := by decide

/-- Each clause at the ends of its range; no address falls under two of them. -/
theorem witness_ReadReturnsTheWindowMap :
    (0x00#8).toNat ≤ 0x0F ∧ (0x0F#8).toNat ≤ 0x0F ∧ ¬ (0x10#8).toNat ≤ 0x0F ∧
    ¬ 0x1C ≤ (0x1B#8).toNat ∧ 0x1C ≤ (0x1C#8).toNat ∧ 0x1C ≤ (0xFF#8).toNat := by decide

/-- A DROM word whose checks pass, one that is no variant, and one with a rotation amount of w. -/
theorem witness_SelectChecksTheRomWordInOrder :
    checkDescriptor (romDescriptor romsDefault 7) = .ok ∧
    checkDescriptor (romDescriptor romsDefault 14) = .invalidVariant ∧
    checkDescriptor (romDescriptor (withSlot14 0x004816843#34).roms 14) =
      .unsupportedRotationAmount := by decide

theorem witness_SelectLoadsTheDescriptor :
    (0x004396843#34 : BitVec 34) = State.reset.roms.drom[(7#4).toNat] ∧
    checkDescriptor (descriptorOfWord 0x004396843#34) = .ok ∧
    (0x000020841#34 : BitVec 34) = State.reset.roms.drom[(0#4).toNat] ∧
    checkDescriptor (descriptorOfWord 0x000020841#34) = .ok := by decide

/-- The last slot that holds a descriptor, and the first that holds none. -/
theorem witness_DefaultCatalogSelects :
    (13#4).toNat ≤ 13 ∧ ¬ 14 ≤ (13#4).toNat ∧ 14 ≤ (14#4).toNat ∧ ¬ (14#4).toNat ≤ 13 := by decide

theorem witness_ExpandGivesTheSpeckSchedule :
    (selected 7).cfgValid = true ∧ (selected 7).cfg.Legal ∧ (selected 7).cfg.family = .speck ∧
    (8#6).toNat = (selected 7).cfg.m * (selected 7).cfg.wb ∧
    (selected 13).cfgValid = true ∧ (selected 13).cfg.Legal ∧ (selected 13).cfg.family = .speck ∧
    (32#6).toNat = (selected 13).cfg.m * (selected 13).cfg.wb := by decide

theorem witness_ExpandGivesTheSimonSchedule :
    (selected 0).cfgValid = true ∧ (selected 0).cfg.Legal ∧ (selected 0).cfg.family = .simon ∧
    (8#6).toNat = (selected 0).cfg.m * (selected 0).cfg.wb ∧
    (selected 5).cfgValid = true ∧ (selected 5).cfg.Legal ∧ (selected 5).cfg.family = .simon ∧
    (24#6).toNat = (selected 5).cfg.m * (selected 5).cfg.wb := by decide

/-- Two key buffers that differ from byte 8 = m*wb on, and two older schedules. -/
theorem witness_ScheduleDependsOnCfgAndKeyOnly :
    (selected 7).cfgValid = true ∧ (selected 7).cfg.Legal ∧ (keyed 7 8 keyE1).cfgValid = true ∧
    (keyed 7 8 keyE1).cfg = { (selected 7).cfg with vidx := (keyed 7 8 keyE1).cfg.vidx } ∧
    (∀ b, b < (selected 7).cfg.m * (selected 7).cfg.wb →
      byteAt (selected 7).keybuf b = byteAt (after (.wkey 8 1) (keyed 7 8 keyE1)).keybuf b) ∧
    (8#6).toNat = (selected 7).cfg.m * (selected 7).cfg.wb ∧
    exec (.expand 8) (selected 7) = .next (after (.expand 8) (selected 7)) ∧
    exec (.expand 8) (after (.wkey 8 1) (keyed 7 8 keyE1)) =
      .next (after (.expand 8) (after (.wkey 8 1) (keyed 7 8 keyE1))) :=
  ⟨by decide, by decide, by decide, by decide, by decide +kernel, by decide, rfl, rfl⟩

theorem witness_SpeckBlockCommandsRunTheRounds :
    keyedSpeck.cfgValid = true ∧ keyedSpeck.cfg.Legal ∧ keyedSpeck.cfg.family = .speck ∧
    keyedSpeck.keyValid = true ∧ (4#6).toNat = 2 * keyedSpeck.cfg.wb := by decide

theorem witness_SimonBlockCommandsRunTheRounds :
    keyedSimon.cfgValid = true ∧ keyedSimon.cfg.Legal ∧ keyedSimon.cfg.family = .simon ∧
    keyedSimon.keyValid = true ∧ (4#6).toNat = 2 * keyedSimon.cfg.wb := by decide

/-- Two blocks that differ from byte 4 = 2*wb on. -/
theorem witness_CipherDependsOnCfgKeysAndBlockOnly :
    keyedSpeck.cfgValid = true ∧ keyedSpeck.cfg.Legal ∧ keyedSpeck.keyValid = true ∧
    (4#6).toNat = 2 * keyedSpeck.cfg.wb ∧
    (after (.win 4 1) keyedSpeck).cfgValid = true ∧ (after (.win 4 1) keyedSpeck).keyValid = true ∧
    (after (.win 4 1) keyedSpeck).cfg = keyedSpeck.cfg ∧
    (∀ j, j < keyedSpeck.cfg.T →
      wordAt keyedSpeck.rk j = wordAt (after (.win 4 1) keyedSpeck).rk j) ∧
    (∀ b, b < 2 * keyedSpeck.cfg.wb →
      byteAt keyedSpeck.inbuf b = byteAt (after (.win 4 1) keyedSpeck).inbuf b) ∧
    exec (.encrypt 4) keyedSpeck = .next (after (.encrypt 4) keyedSpeck) ∧
    exec (.encrypt 4) (after (.win 4 1) keyedSpeck) =
      .next (after (.encrypt 4) (after (.win 4 1) keyedSpeck)) :=
  ⟨by decide, by decide, by decide, by decide, by decide, by decide, by decide,
    fun _ _ => rfl, by decide, rfl, rfl⟩

/-- The block's ciphertext copied to INBUF (the source's round trip, 95_test_vectors.md E1). -/
theorem witness_DecryptUndoesEncrypt :
    keyedSpeck.cfgValid = true ∧ keyedSpeck.cfg.Legal ∧ keyedSpeck.keyValid = true ∧
    (4#6).toNat = 2 * keyedSpeck.cfg.wb ∧
    exec (.encrypt 4) keyedSpeck = .next (after (.encrypt 4) keyedSpeck) ∧
    (let u := { after (.encrypt 4) keyedSpeck with inbuf := bytes 16 [0xF2, 0x42, 0x68, 0xA8] }
    u.cfgValid = true ∧ u.keyValid = true ∧ u.cfg = keyedSpeck.cfg ∧ u.rk = keyedSpeck.rk ∧
    (∀ b, b < 2 * keyedSpeck.cfg.wb →
      byteAt u.inbuf b = byteAt (after (.encrypt 4) keyedSpeck).outbuf b) ∧
    exec (.decrypt 4) u = .next (after (.decrypt 4) u)) ∧
    exec (.decrypt 4) keyedSpeck = .next (after (.decrypt 4) keyedSpeck) ∧
    (let u := { after (.decrypt 4) keyedSpeck with inbuf := (after (.decrypt 4) keyedSpeck).outbuf }
    u.cfgValid = true ∧ u.keyValid = true ∧ u.cfg = keyedSpeck.cfg ∧ u.rk = keyedSpeck.rk ∧
    (∀ b, b < 2 * keyedSpeck.cfg.wb →
      byteAt u.inbuf b = byteAt (after (.decrypt 4) keyedSpeck).outbuf b) ∧
    exec (.encrypt 4) u = .next (after (.encrypt 4) u)) :=
  ⟨by decide, by decide, by decide, by decide, rfl, ⟨rfl, rfl, rfl, rfl, by decide +kernel, rfl⟩, rfl,
    rfl, rfl, rfl, rfl, fun _ _ => rfl, rfl⟩

/-- With no variant, and with one. -/
theorem witness_CheckedCommandsReportTheFirstError :
    (State.reset.cfgValid = true → State.reset.cfg.Legal) ∧
    ((selected 7).cfgValid = true → (selected 7).cfg.Legal) ∧ (selected 7).cfgValid = true :=
  ⟨by decide, by decide, by decide⟩

/-- A command that fails, and an illegal word. -/
theorem witness_FailingCommandsHaveNoOtherEffect :
    exec (.encrypt 4) (selected 7) = .next (after (.encrypt 4) (selected 7)) ∧
    (after (.encrypt 4) (selected 7)).rspPending = some 0x0500#16 ∧
    (0x0500#16).extractLsb' 8 8 ≠ 0x00#8 ∧
    State.reset.seq = .idle ∧
    runWord 0xA0000000#32 State.reset = .next (failed .illegalCommand State.reset) ∧
    (failed .illegalCommand State.reset).rspPending = some 0x0600#16 :=
  ⟨rfl, by decide, by decide, rfl, rfl, by decide⟩

/-- A failing command, and commands that complete with OK, CLRERR among them. -/
theorem witness_ErrorRegistersFollowTheResponses :
    exec (.select 14) (selected 7) = .next (after (.select 14) (selected 7)) ∧
    (after (.select 14) (selected 7)).rspPending = some 0x0100#16 ∧
    exec (.read 0x1A) (selected 7) = .next (after (.read 0x1A) (selected 7)) ∧
    (after (.read 0x1A) (selected 7)).rspPending = some 0x0053#16 ∧
    exec .clrerr (selected 7) = .next (after .clrerr (selected 7)) ∧
    (after .clrerr (selected 7)).rspPending = some 0x0000#16 :=
  ⟨rfl, by decide, rfl, by decide, rfl, by decide⟩

theorem witness_EveryCommandResponds :
    exec (.expand 8) (selected 7) = .next (after (.expand 8) (selected 7)) := rfl

/-- A command that writes none of the state each clause is about. -/
theorem witness_StateIsWrittenOnlyByItsCommands :
    exec (.read 0) keyedSpeck = .next (after (.read 0) keyedSpeck) ∧ Instr.read 0 ≠ .sreset ∧
    (∀ v, Instr.read 0 ≠ .select v) ∧ (∀ n, Instr.read 0 ≠ .expand n) ∧
    (∀ k d, Instr.read 0 ≠ .wkey k d) ∧ (∀ k d, Instr.read 0 ≠ .win k d) ∧
    (∀ n, Instr.read 0 ≠ .encrypt n) ∧ (∀ n, Instr.read 0 ≠ .decrypt n) := by
  refine ⟨rfl, ?_, ?_, ?_, ?_, ?_, ?_, ?_⟩ <;> simp

/-- EXPAND sets KEY_VALID; SELECT and SRESET clear it. -/
theorem witness_KeyValidIsSetByExpandAndClearedBySelect :
    exec (.expand 8) (selected 7) = .next (after (.expand 8) (selected 7)) ∧
    (after (.expand 8) (selected 7)).keyValid ≠ (selected 7).keyValid ∧
    exec (.select 7) keyedSpeck = .next (after (.select 7) keyedSpeck) ∧
    (after (.select 7) keyedSpeck).keyValid ≠ keyedSpeck.keyValid ∧
    exec .sreset keyedSpeck = .next (after .sreset keyedSpeck) ∧
    (after .sreset keyedSpeck).keyValid ≠ keyedSpeck.keyValid :=
  ⟨rfl, by decide, rfl, by decide, rfl, by decide⟩

theorem witness_RomsNeverChange :
    step (presentWord 0x10000007#32 State.reset) =
      .next (stateOf (step (presentWord 0x10000007#32 State.reset))) ∧
    clockEdge ⟨true, false, 0⟩ expanding = .next (stateOf (clockEdge ⟨true, false, 0⟩ expanding)) :=
  ⟨rfl, rfl⟩

/-- Two good states with different secrets that the host cannot tell apart. -/
theorem witness_SecretsReachTheHostOnlyThroughTheCipher :
    Inv (goodState 1) ∧ Inv (goodState 2) ∧ (goodState 1).roms = (goodState 2).roms ∧
    SameToHost (goodState 1) (goodState 2) ∧ (goodState 1).keybuf ≠ (goodState 2).keybuf :=
  ⟨goodState_inv 1, goodState_inv 2, rfl, by decide, by decide⟩

/-- A state some commands after reset with no variant selected, and one right after reset, with X and RK at
values of no interest: R50 leaves them unspecified. -/
theorem witness_ResetBlockAnswers :
    (after (.wkey 3 9) State.reset).cfgValid = false ∧
    AfterReset { State.reset with x := 1, rk := Vector.replicate 69 7 } ∧
    checkDescriptor (romDescriptor State.reset.roms 13) = .ok := by decide

theorem witness_RepeatedCommandsLeaveTheSameState :
    exec (.win 3 9) (selected 7) = .next (after (.win 3 9) (selected 7)) ∧
    exec (.encrypt 4) keyedSpeck = .next (after (.encrypt 4) keyedSpeck) := ⟨rfl, rfl⟩

theorem witness_StepKeepsTheInvariant :
    Inv (goodState 1) ∧ step (goodState 1) = .next (stateOf (step (goodState 1))) :=
  ⟨goodState_inv 1, rfl⟩

theorem witness_ClockEdgeKeepsTheInvariant :
    Inv (goodState 1) ∧ clockEdge ⟨false, true, 0x40000008#32⟩ (goodState 1) =
      .next (stateOf (clockEdge ⟨false, true, 0x40000008#32⟩ (goodState 1))) :=
  ⟨goodState_inv 1, rfl⟩

/-- A state with a complete schedule. -/
theorem witness_StepKeepsTheScheduleComplete :
    KeyScheduled keyedSpeck ∧ keyedSpeck.keyValid = true ∧
    step keyedSpeck = .next (stateOf (step keyedSpeck)) :=
  ⟨⟨rfl, fun _ => ⟨selected_legal.1, bytes 32 keyE1, ⟨(selected 7).win, (selected 7).rk⟩,
    fun _ _ => rfl⟩⟩, by decide, rfl⟩

theorem witness_StepNeverStops : Inv (goodState 1) := goodState_inv 1

/-- EXPAND 8 of Speck 64/32 takes 22 cycles (R270), and ENCRYPT 4 with no schedule takes one. -/
theorem witness_EdgesAddUpToTheTransaction :
    ([] : List Pins).length + 1 = wordLatency 0x50000004#32 (selected 7) ∧
    (selected 7).seq = .idle ∧ ((selected 7).cfgValid = true → (selected 7).cfg.Legal) ∧
    (∀ p ∈ List.replicate 21 (⟨false, true, 0#32⟩ : Pins), p.rst = false) ∧
    (List.replicate 21 (⟨false, true, 0#32⟩ : Pins)).length + 1 =
      wordLatency 0x40000008#32 (selected 7) := by decide

theorem witness_NoResponseBeforeTheLatency :
    (selected 7).seq = .idle ∧ ((selected 7).cfgValid = true → (selected 7).cfg.Legal) ∧
    (∀ p ∈ List.replicate 20 (⟨false, true, 0#32⟩ : Pins), p.rst = false) ∧
    (List.replicate 20 (⟨false, true, 0#32⟩ : Pins)).length + 1 <
      wordLatency 0x40000008#32 (selected 7) := by decide

/-- `010` and `0x1f`, a leading zero and a hexadecimal number, each alone and both as a list. -/
theorem witness_TextLinesAreReadAsSourceLines :
    NumberText "010".toList 10 ∧ NumberText "0x1f".toList 31 ∧
    List.Forall₂ NumberText ["010".toList, "0x1f".toList] [10, 31] := by
  have h : NumberText "010".toList 10 := .inl ⟨[0, 1, 0], by decide, by decide, by decide⟩
  have h' : NumberText "0x1f".toList 31 := .inr ⟨[1, 15], by decide, by decide, by decide⟩
  exact ⟨h, h', .cons h (.cons h' .nil)⟩

end Sys2Proof.Tests
end

/-! PROOFS: what the block does with an accepted word, as a transaction and at its accepting edge (R16, R34,
R88). -/

namespace Sys2Proof.Machine

theorem runWord_command {c : CmdWord} {i : Instr} (s : State) (hd : decode c = .command i) :
    runWord c s = exec i s := by
  simp only [runWord, hd]

theorem runWord_illegal {c : CmdWord} {why : Illegal} (s : State) (hd : decode c = .illegal why) :
    runWord c s = execIllegal s := by
  simp only [runWord, hd]

/-- A word at the pins of an idle block is taken and run as one transaction (R16, R34). -/
theorem step_runs_word {s : State} {c : CmdWord} {rest : List PortEvent} (hs : s.seq = .idle)
    (hp : s.port = .command c :: rest) : step s = runWord c { s with port := rest } := by
  simp only [step, stepPort, hp, if_pos hs]

/-- An idle block accepts a presented command at a rising edge with `rst` at 0 (R34). -/
theorem clockEdge_accepts {c : CmdWord} {i : Instr} {s : State} (hs : s.seq = .idle)
    (hd : decode c = .command i) : clockEdge ⟨false, true, c⟩ s = acceptEdge i s := by
  simp [clockEdge, cmdReady, hs, hd]

/-- An idle block accepts a word that is no command, and fails at that edge (R34, R238). -/
theorem clockEdge_illegal {c : CmdWord} {why : Illegal} {s : State} (hs : s.seq = .idle)
    (hd : decode c = .illegal why) : clockEdge ⟨false, true, c⟩ s = execIllegal s := by
  simp [clockEdge, cmdReady, hs, hd]

/-- Settles O14: an idle block runs the word at its pins, and a word that decodes runs as its command. -/
theorem stepRunsTheDecodedCommand : Obligations.StepRunsTheDecodedCommand := by
  intro s c rest i hs hp hd
  rw [step_runs_word hs hp, runWord_command _ hd]

end Sys2Proof.Machine

/-! PROOFS: the edges of a command in progress, and how many a command takes (R170, R206, R268, R270). -/

namespace Sys2Proof.Machine

-- Runs of edges

theorem clockEdges_cons_next {p : Pins} {ps : List Pins} {s t : State}
    (h : clockEdge p s = .next t) : clockEdges (p :: ps) s = clockEdges ps t := by
  simp only [clockEdges, h]

theorem clockEdges_singleton (p : Pins) (s : State) : clockEdges [p] s = clockEdge p s := by
  simp only [clockEdges]
  cases clockEdge p s <;> rfl

/-- Edges with `rst` at 0 run along a chain of busy states that the sequencer steps through, whatever the
command port carries (R265). -/
theorem clockEdges_chain {chain : Nat → State} {N n : Nat} {ps : List Pins}
    (hbusy : ∀ k, k < N → (chain k).seq ≠ .idle)
    (hstep : ∀ k, k < N → seqEdge (chain k) = .next (chain (k + 1)))
    (hrst : ∀ p ∈ ps, p.rst = false) (hn : n + ps.length ≤ N) :
    clockEdges ps (chain n) = .next (chain (n + ps.length)) := by
  induction ps generalizing n with
  | nil => rfl
  | cons p ps ih =>
    rw [List.length_cons] at hn
    have hedge : clockEdge p (chain n) = .next (chain (n + 1)) := by
      rw [clockEdge_busy (hrst p List.mem_cons_self) (hbusy n (by omega)), hstep n (by omega)]
    rw [clockEdges_cons_next hedge, ih (fun q hq => hrst q (List.mem_cons_of_mem p hq)) (by omega),
      List.length_cons, Nat.add_assoc, Nat.add_comm 1]

-- The edges of the sequencer under a legal configuration

theorem seqEdge_ksStep {s : State} (hs : s.seq = .ksStep) (hl : s.cfg.Legal) :
    seqEdge s = .next (ksStepEdge s) := by
  simp only [seqEdge, hs, whenLegal_of_legal _ hl]

theorem seqEdge_rfRound {s : State} (hs : s.seq = .rfRound) (hl : s.cfg.Legal) :
    seqEdge s = .next (rfRoundEdge s) := by
  simp only [seqEdge, hs, whenLegal_of_legal _ hl]

theorem seqEdge_rfPack {s : State} (hs : s.seq = .rfPack) (hl : s.cfg.Legal) :
    seqEdge s = .next (rfPackEdge s) := by
  simp only [seqEdge, hs, whenLegal_of_legal _ hl]

/-- EXPAND from the edge after its accepting one: one edge for each key step (R170). -/
def expandChain (s : State) (k : Nat) : State :=
  if k < scheduleSteps s.cfg then ksProgress s k
  else expandDone (runSchedule s.cfg s.keybuf ⟨s.win, s.rk⟩) (scheduleSteps s.cfg) s

theorem expandChain_running {s : State} {k : Nat} (hk : k < scheduleSteps s.cfg) :
    expandChain s k = ksProgress s k := if_pos hk

theorem expandChain_done (s : State) :
    expandChain s (scheduleSteps s.cfg) =
      expandDone (runSchedule s.cfg s.keybuf ⟨s.win, s.rk⟩) (scheduleSteps s.cfg) s :=
  if_neg (Nat.lt_irrefl _)

theorem expandChain_busy {s : State} {k : Nat} (hk : k < scheduleSteps s.cfg) :
    (expandChain s k).seq ≠ .idle := by
  rw [expandChain_running hk]
  exact Seq.noConfusion

theorem expandChain_step {s : State} (hl : s.cfg.Legal) {k : Nat} (hk : k < scheduleSteps s.cfg) :
    seqEdge (expandChain s k) = .next (expandChain s (k + 1)) := by
  have hk128 : k < 128 := by
    have := (firstKeyCount_add_scheduleSteps hl).2.2
    omega
  rw [expandChain_running hk, seqEdge_ksStep (s := ksProgress s k) rfl hl]
  by_cases hlast : k + 1 = scheduleSteps s.cfg
  · rw [ksStepEdge_last hk128 hlast, hlast, expandChain_done]
  · rw [ksStepEdge_ksProgress hk128 hlast, expandChain_running (by omega)]

/-- ENCRYPT or DECRYPT from the edge after its accepting one: one edge for each round, and one to pack
(R206). -/
def cipherChain (d : Dir) (s : State) (k : Nat) : State :=
  if k ≤ s.cfg.T then rfProgress d s k
  else cipherDone d (runRounds s.cfg s.rk d (loadHalves s.cfg s.inbuf)) s

theorem cipherChain_running {d : Dir} {s : State} {k : Nat} (hk : k ≤ s.cfg.T) :
    cipherChain d s k = rfProgress d s k := if_pos hk

theorem cipherChain_done (d : Dir) (s : State) :
    cipherChain d s (s.cfg.T + 1) =
      cipherDone d (runRounds s.cfg s.rk d (loadHalves s.cfg s.inbuf)) s :=
  if_neg (Nat.not_succ_le_self _)

theorem rfProgress_seq_round {d : Dir} {s : State} {k : Nat} (hk : k < s.cfg.T) :
    (rfProgress d s k).seq = .rfRound := if_neg (Nat.ne_of_lt hk)

theorem rfProgress_seq_pack (d : Dir) (s : State) : (rfProgress d s s.cfg.T).seq = .rfPack :=
  if_pos rfl

theorem cipherChain_busy {d : Dir} {s : State} {k : Nat} (hk : k < s.cfg.T + 1) :
    (cipherChain d s k).seq ≠ .idle := by
  rw [cipherChain_running (by omega)]
  rcases Nat.lt_succ_iff_lt_or_eq.mp hk with h | rfl
  · rw [rfProgress_seq_round h]; exact Seq.noConfusion
  · rw [rfProgress_seq_pack]; exact Seq.noConfusion

theorem cipherChain_step {d : Dir} {s : State} (hl : s.cfg.Legal) {k : Nat} (hk : k < s.cfg.T + 1) :
    seqEdge (cipherChain d s k) = .next (cipherChain d s (k + 1)) := by
  rw [cipherChain_running (by omega)]
  rcases Nat.lt_succ_iff_lt_or_eq.mp hk with h | rfl
  · have hT := (legal_ranges hl).2.2.2
    rw [seqEdge_rfRound (rfProgress_seq_round h) hl, rfRoundEdge_rfProgress d s (by omega),
      cipherChain_running h]
  · rw [seqEdge_rfPack (rfProgress_seq_pack d s) hl, rfPackEdge_rfProgress, cipherChain_done]

-- The accepting edge, the transaction and the latency of a command

/-- How a command takes its cycles: it has its whole effect at the accepting edge, or that edge starts a
chain of busy states, one edge each, whose last is the state its transaction leaves (R268, R270). -/
inductive Course (i : Instr) (s : State) : Prop where
  | oneCycle (hlat : latency i s = 1) (hedge : acceptEdge i s = exec i s)
  | sequenced (chain : Nat → State) (N : Nat) (hlat : latency i s = N + 1)
    (hstart : acceptEdge i s = .next (chain 0))
    (hbusy : ∀ k, k < N → (chain k).seq ≠ .idle)
    (hstep : ∀ k, k < N → seqEdge (chain k) = .next (chain (k + 1)))
    (hdone : exec i s = .next (chain N))

/-- The accepting edge of an EXPAND whose checks pass starts its chain of edges (R170). -/
theorem acceptEdge_expand {len : BitVec 6} {s : State} (hc : checkExpand len s = .ok)
    (hl : s.cfg.Legal) : acceptEdge (.expand len) s = .next (expandChain s 0) := by
  rw [expandChain_running (firstKeyCount_add_scheduleSteps hl).2.1, ksProgress_zero]
  simp only [acceptEdge, hc, whenLegal_of_legal _ hl]

/-- A failing EXPAND has its whole effect at the accepting edge (R231). -/
theorem acceptEdge_expand_of_failing {len : BitVec 6} {s : State} (hc : checkExpand len s ≠ .ok) :
    acceptEdge (.expand len) s = exec (.expand len) s := by
  rw [acceptEdge, exec, execExpand]
  cases h : checkExpand len s with
  | ok => exact absurd h hc
  | _ => rfl

theorem expand_has_course (len : BitVec 6) {s : State} (hsel : s.cfgValid = true → s.cfg.Legal) :
    Course (.expand len) s := by
  by_cases hc : checkExpand len s = .ok
  · have hl := hsel (checkExpand_eq_ok.mp hc).1
    exact .sequenced (expandChain s) (scheduleSteps s.cfg)
      (hlat := (if_pos hc).trans (Nat.add_comm _ _))
      (hstart := acceptEdge_expand hc hl)
      (hbusy := fun _ => expandChain_busy)
      (hstep := fun _ => expandChain_step hl)
      (hdone := execExpand_eq_next.mpr (.inr ⟨hc, hl, expandChain_done s⟩))
  · exact .oneCycle (if_neg hc) (acceptEdge_expand_of_failing hc)

theorem latency_cipherCommand (d : Dir) (len : BitVec 6) (s : State) :
    latency (cipherCommand d len) s = if checkCipher len s = .ok then s.cfg.T + 2 else 1 := by
  cases d <;> rfl

/-- The accepting edge of an ENCRYPT or DECRYPT whose checks pass starts its chain of edges (R206). -/
theorem acceptEdge_cipher {d : Dir} {len : BitVec 6} {s : State} (hc : checkCipher len s = .ok)
    (hl : s.cfg.Legal) : acceptEdge (cipherCommand d len) s = .next (cipherChain d s 0) := by
  have hT := (legal_ranges hl).2.2.1
  rw [cipherChain_running (Nat.zero_le _), rfProgress_zero (by omega), acceptEdge_cipherCommand, hc]
  exact whenLegal_of_legal _ hl

/-- A failing ENCRYPT or DECRYPT has its whole effect at the accepting edge (R231). -/
theorem acceptEdge_cipher_of_failing {d : Dir} {len : BitVec 6} {s : State}
    (hc : checkCipher len s ≠ .ok) :
    acceptEdge (cipherCommand d len) s = exec (cipherCommand d len) s := by
  rw [acceptEdge_cipherCommand, exec_cipherCommand, runCipher]
  cases h : checkCipher len s with
  | ok => exact absurd h hc
  | _ => rfl

theorem cipher_has_course (d : Dir) (len : BitVec 6) {s : State}
    (hsel : s.cfgValid = true → s.cfg.Legal) : Course (cipherCommand d len) s := by
  by_cases hc : checkCipher len s = .ok
  · have hl := hsel (checkCipher_eq_ok.mp hc).1
    exact .sequenced (cipherChain d s) (s.cfg.T + 1)
      (hlat := (latency_cipherCommand d len s).trans (if_pos hc))
      (hstart := acceptEdge_cipher hc hl)
      (hbusy := fun _ => cipherChain_busy)
      (hstep := fun _ => cipherChain_step hl)
      (hdone := (exec_cipherCommand d len s).trans
        (runCipher_eq_next.mpr (.inr ⟨hc, hl, cipherChain_done d s⟩)))
  · exact .oneCycle ((latency_cipherCommand d len s).trans (if_neg hc))
      (acceptEdge_cipher_of_failing hc)

/-- Every command has a course, when the CFG registers of a selected variant are legal. -/
theorem command_has_course (i : Instr) {s : State} (hsel : s.cfgValid = true → s.cfg.Legal) :
    Course i s := by
  cases i with
  | nop => exact .oneCycle rfl rfl
  | select vidx => exact .oneCycle rfl rfl
  | wkey idx data => exact .oneCycle rfl rfl
  | win idx data => exact .oneCycle rfl rfl
  | expand len => exact expand_has_course len hsel
  | encrypt len => exact cipher_has_course .encrypt len hsel
  | decrypt len => exact cipher_has_course .decrypt len hsel
  | read addr => exact .oneCycle rfl rfl
  | clrerr => exact .oneCycle rfl rfl
  | sreset => exact .oneCycle rfl rfl

/-- The accepting edge of a command and the further edges of its latency run the command (R268, R270). -/
theorem clockEdges_command {c : CmdWord} {i : Instr} {s : State} (hs : s.seq = .idle)
    (hsel : s.cfgValid = true → s.cfg.Legal) (hd : decode c = .command i) {ps : List Pins}
    (hrst : ∀ p ∈ ps, p.rst = false) (hlen : ps.length + 1 = latency i s) :
    clockEdges (⟨false, true, c⟩ :: ps) s = exec i s := by
  have haccept := clockEdge_accepts hs hd
  cases command_has_course i hsel with
  | oneCycle hlat hedge =>
    rw [hlat, Nat.add_eq_right, List.length_eq_zero_iff] at hlen
    rw [hlen, clockEdges_singleton, haccept, hedge]
  | sequenced chain N hlat hstart hbusy hstep hdone =>
    have hN : ps.length = N := by omega
    rw [clockEdges_cons_next (haccept.trans hstart),
      clockEdges_chain hbusy hstep hrst (by omega), Nat.zero_add, hN, hdone]

/-- The edges of a word's latency run the word, an illegal one too (R238, R270). -/
theorem clockEdges_word {c : CmdWord} {s : State} (hs : s.seq = .idle)
    (hsel : s.cfgValid = true → s.cfg.Legal) {ps : List Pins} (hrst : ∀ p ∈ ps, p.rst = false)
    (hlen : ps.length + 1 = wordLatency c s) :
    clockEdges (⟨false, true, c⟩ :: ps) s = runWord c s := by
  cases hd : decode c with
  | command i =>
    simp only [wordLatency, hd] at hlen
    rw [clockEdges_command hs hsel hd hrst hlen, runWord_command s hd]
  | illegal why =>
    simp only [wordLatency, hd, Nat.add_eq_right, List.length_eq_zero_iff] at hlen
    rw [hlen, clockEdges_singleton, clockEdge_illegal hs hd, runWord_illegal s hd]

-- The latencies as numbers

/-- One load and one edge a key step: `1 + S` cycles, which is T with SPECK (R167, R270). -/
theorem latency_expand_eq (len : BitVec 6) {s : State} (hsel : s.cfgValid = true → s.cfg.Legal) :
    latency (.expand len) s =
      if s.cfgValid = true ∧ len.toNat = s.cfg.m * s.cfg.wb then
        if s.cfg.family = .speck then s.cfg.T else 1 + (s.cfg.T - s.cfg.m)
      else 1 := by
  simp only [latency, checkExpand_eq_ok]
  split
  · next hc =>
    have hT := (legal_ranges (hsel hc.1)).2.2.1
    cases hf : s.cfg.family with
    | speck => rw [scheduleSteps_speck hf, if_pos rfl]; omega
    | simon => rw [scheduleSteps_simon hf, if_neg Family.noConfusion]
  · rfl

theorem latency_cipher_eq (d : Dir) (len : BitVec 6) (s : State) :
    latency (cipherCommand d len) s =
      if s.cfgValid = true ∧ len.toNat = 2 * s.cfg.wb ∧ s.keyValid = true then s.cfg.T + 2
      else 1 := by
  simp only [latency_cipherCommand, checkCipher_eq_ok]

/-- Settles O48: the latency is read off the checks, and the edges run along the chain of states of an EXPAND,
an ENCRYPT or a DECRYPT in progress, to the state its transaction leaves. -/
theorem edgesAddUpToTheTransaction : Obligations.EdgesAddUpToTheTransaction := by
  intro s c hs hsel
  refine ⟨?_, fun ps hrst hlen => clockEdges_word hs hsel hrst hlen⟩
  unfold wordLatency
  cases decode c with
  | illegal why => rfl
  | command i =>
    cases i with
    | expand len => exact latency_expand_eq len hsel
    | encrypt len => exact latency_cipher_eq .encrypt len s
    | decrypt len => exact latency_cipher_eq .decrypt len s
    | _ => rfl

end Sys2Proof.Machine

/-! PROOFS: the invariant of the block, kept by every step and every edge (R21-R35, R46, R170, R206, R268). -/

namespace Sys2Proof.Machine

-- What a passed SELECT check says

theorem checkDescriptor_ok {d : Descriptor} (h : checkDescriptor d = .ok) :
    d.wbits.toNat ∈ wordWidths ∧ d.kwords.toNat ∈ keyWordCounts ∧
    (roundsMin ≤ d.rounds.toNat ∧ d.rounds.toNat ≤ roundsMax) ∧
    (d.family = .speck → d.alpha.toNat < d.wbits.toNat ∧ d.beta.toNat < d.wbits.toNat) := by
  unfold checkDescriptor at h
  split_ifs at h with hpresent hw hm hT hz hrot
  refine ⟨hw, hm, by omega, fun hf => ?_⟩
  simp only [hf, true_and, not_or, ge_iff_le, not_le] at hrot
  exact hrot

/-- The CFG registers of a successful SELECT are legal (R22, R146). -/
theorem legal_cfgOfDescriptor (roms : Roms) (vidx : BitVec 4) {d : Descriptor}
    (h : checkDescriptor d = .ok) : (cfgOfDescriptor roms vidx d).Legal := by
  obtain ⟨hw, hm, ⟨hmin, hmax⟩, hrot⟩ := checkDescriptor_ok h
  refine ⟨hw, hm, hmin, hmax, fun hf => ?_, fun hf => ?_⟩
  · have hf : d.family = .simon := hf
    simp [cfgOfDescriptor, hf]
  · have hf : d.family = .speck := hf
    simp only [cfgOfDescriptor, hf, if_true]
    exact ⟨(hrot hf).1, (hrot hf).2, rfl⟩

-- The two parts of the invariant that every completion keeps

/-- The clauses of `Inv` on the registers a command leaves, whatever the sequencer does. -/
structure GoodRegisters (s : State) : Prop where
  selected : s.cfgValid = true → s.cfg.Legal
  unselected : s.cfgValid = false → s.cfg = Cfg.reset
  keyOfVariant : s.keyValid = true → s.cfgValid = true
  errClear : s.err = false → s.errcode = 0
  errSet : s.err = true → IsErrorCode s.errcode
  roundKeys : s.keyValid = true → RoundKeysAreWords s.cfg s.rk s.cfg.T

theorem Inv.registers {s : State} (h : Inv s) : GoodRegisters s := { h with }

/-- The registers of the clauses are all that `GoodRegisters` reads. -/
theorem GoodRegisters.frame {s t : State} (h : GoodRegisters s)
    (he : t.cfgValid = s.cfgValid ∧ t.cfg = s.cfg ∧ t.keyValid = s.keyValid ∧ t.err = s.err ∧
      t.errcode = s.errcode ∧ t.rk = s.rk) : GoodRegisters t := by
  obtain ⟨hv, hcfg, hk, herr, hcode, hrk⟩ := he
  constructor
  · rw [hv, hcfg]; exact h.selected
  · rw [hv, hcfg]; exact h.unselected
  · rw [hv, hk]; exact h.keyOfVariant
  · rw [herr, hcode]; exact h.errClear
  · rw [herr, hcode]; exact h.errSet
  · rw [hk, hcfg, hrk]; exact h.roundKeys

/-- The clause of `Inv` on a driven response (R46, R230). -/
abbrev GoodResponse (r : BitVec 16) : Prop :=
  (r.extractLsb' 8 8).toNat ≤ 6 ∧ (r.extractLsb' 8 8 ≠ 0 → r.extractLsb' 0 8 = 0)

/-- In an idle block nothing more is asked than good registers and a good response. -/
theorem GoodRegisters.inv_of_idle {s : State} (h : GoodRegisters s) (hs : s.seq = .idle)
    (hr : ∀ r, s.rspPending = some r → GoodResponse r) : Inv s :=
  { h with
    response := hr
    busyResponse := fun hb => absurd hs hb
    busyVariant := fun hb => absurd hs hb
    inSchedule := fun hb => Seq.noConfusion (hs.symm.trans hb)
    inRounds := fun hb => Seq.noConfusion (hs.symm.trans hb)
    inPack := fun hb => Seq.noConfusion (hs.symm.trans hb) }

theorem isErrorCode_toByte {code : ResultCode} (h : code ≠ .ok) : IsErrorCode code.toByte := by
  cases code with
  | ok => exact absurd rfl h
  | _ => decide

theorem toByte_le_six (code : ResultCode) : code.toByte.toNat ≤ 6 := by
  cases code <;> decide

theorem goodResponse_responseWord {code : ResultCode} {data : Byte} (h : code ≠ .ok → data = 0) :
    GoodResponse (responseWord code data) := by
  rw [GoodResponse, responseWord_code, responseWord_data]
  exact ⟨toByte_le_six code, fun hc => h fun e => hc (toByte_eq_zero.mpr e)⟩

theorem GoodRegisters.inv_complete {s : State} (h : GoodRegisters s) {code : ResultCode} {data : Byte}
    (hd : code ≠ .ok → data = 0) : Inv (complete code data s) :=
  GoodRegisters.inv_of_idle { h with } rfl fun _ hr =>
    Option.some.inj hr ▸ goodResponse_responseWord hd

theorem GoodRegisters.inv_failed {s : State} (h : GoodRegisters s) {code : ResultCode}
    (hc : code ≠ .ok) : Inv (failed code s) :=
  have hrec : GoodRegisters (recordError code s) :=
    { h with errClear := nofun, errSet := fun _ => isErrorCode_toByte hc }
  hrec.inv_complete fun _ => rfl

/-- Registers at their reset values are good (R50). -/
theorem GoodRegisters.of_reset {s : State} (hv : s.cfgValid = false) (hcfg : s.cfg = Cfg.reset)
    (hk : s.keyValid = false) (herr : s.err = false) (hcode : s.errcode = 0) : GoodRegisters s where
  selected := fun h => Bool.noConfusion (hv.symm.trans h)
  unselected := fun _ => hcfg
  keyOfVariant := fun h => Bool.noConfusion (hk.symm.trans h)
  errClear := fun _ => hcode
  errSet := fun h => Bool.noConfusion (herr.symm.trans h)
  roundKeys := fun h => Bool.noConfusion (hk.symm.trans h)

theorem inv_resetAll (s : State) : Inv (resetAll s) :=
  (GoodRegisters.of_reset rfl rfl rfl rfl rfl).inv_of_idle rfl nofun

-- Commands

theorem GoodRegisters.cipherDone {s : State} (h : GoodRegisters s) (d : Dir) (halves : Halves) :
    GoodRegisters (cipherDone d halves s) := h.frame (by simp)

theorem GoodRegisters.expandDone {s : State} (h : GoodRegisters s) {k : Schedule} (n : Nat)
    (hv : s.cfgValid = true) (hk : RoundKeysAreWords s.cfg k.rk s.cfg.T) :
    GoodRegisters (expandDone k n s) :=
  { h with keyOfVariant := fun _ => hv, roundKeys := fun _ => hk }

/-- What a command that completes with OK does keeps the registers good. -/
theorem Effect.goodRegisters {i : Instr} {s u : State} {data : Byte} (h : GoodRegisters s)
    (he : Effect i s data u) : GoodRegisters u := by
  cases i with
  | nop | read => obtain ⟨-, rfl⟩ := he; exact h
  | wkey | win => obtain ⟨-, rfl⟩ := he; exact { h with }
  | select vidx =>
    obtain ⟨-, hc, rfl⟩ := he
    exact { h with
      selected := fun _ => legal_cfgOfDescriptor s.roms vidx hc
      unselected := nofun
      keyOfVariant := nofun
      roundKeys := nofun }
  | expand len =>
    obtain ⟨-, hc, hl, rfl⟩ := he
    exact h.expandDone _ (checkExpand_eq_ok.mp hc).1 (runSchedule_words hl _ _)
  | encrypt | decrypt => obtain ⟨-, -, -, rfl⟩ := he; exact h.cipherDone _ _
  | clrerr => obtain ⟨-, rfl⟩ := he; exact { h with errClear := fun _ => rfl, errSet := nofun }
  | sreset => obtain ⟨-, rfl⟩ := he; exact (inv_resetAll s).registers

/-- A whole command leaves a good state. -/
theorem exec_keeps_inv {i : Instr} {s t : State} (h : GoodRegisters s) (hx : exec i s = .next t) :
    Inv t := by
  rcases exec_cases hx with ⟨hc, rfl⟩ | ⟨-, data, u, rfl, he⟩
  · exact h.inv_failed hc
  · exact (he.goodRegisters h).inv_complete fun hne => absurd rfl hne

-- The edges of a command in progress

theorem ksStepEdge_of_last {s : State} (h : s.rc.toNat + 1 = scheduleSteps s.cfg) :
    ksStepEdge s =
      expandDone (scheduleStep s.cfg s.rc.toNat ⟨s.win, s.rk⟩) (s.rc.toNat + 1) s := if_pos h

theorem ksStepEdge_of_more {s : State} (h : s.rc.toNat + 1 ≠ scheduleSteps s.cfg) :
    ksStepEdge s =
      { s with
        win := (scheduleStep s.cfg s.rc.toNat ⟨s.win, s.rk⟩).win
        rk := (scheduleStep s.cfg s.rc.toNat ⟨s.win, s.rk⟩).rk
        rc := s.rc + 1
        rspPending := none } := if_neg h

/-- The counter does not wrap below its seven bits. -/
theorem toNat_rc_add_one {rc : BitVec 7} {n : Nat} (h : rc.toNat < n) (hn : n ≤ 127) :
    (rc + 1).toNat = rc.toNat + 1 := by
  rw [BitVec.toNat_add]
  exact Nat.mod_eq_of_lt (show rc.toNat + 1 < 128 by omega)

/-- EXPAND's accepting edge leaves a good state, with the load done and every step still to do (R170). -/
theorem inv_startExpand {s : State} (h : GoodRegisters s) (hv : s.cfgValid = true)
    (hl : s.cfg.Legal) : Inv (startExpand s) :=
  { h with
    roundKeys := fun hk => scheduleStart_keeps_words hl _ (h.roundKeys hk)
    response := nofun
    busyResponse := fun _ => rfl
    busyVariant := fun _ => hv
    inSchedule := fun _ =>
      ⟨(firstKeyCount_add_scheduleSteps hl).2.1, scheduleStart_words hl s.keybuf ⟨s.win, s.rk⟩⟩
    inRounds := nofun
    inPack := nofun }

/-- A key step's edge leaves a good state: one step less to do, or the whole schedule (R170). -/
theorem inv_ksStepEdge {s : State} (h : Inv s) (hs : s.seq = .ksStep) (hl : s.cfg.Legal) :
    Inv (ksStepEdge s) := by
  obtain ⟨hrc, hwin, hrk⟩ := h.inSchedule hs
  obtain ⟨hcount, -, hsteps⟩ := firstKeyCount_add_scheduleSteps hl
  have hT := (legal_ranges hl).2.2.2
  have hv := h.busyVariant (by rw [hs]; exact Seq.noConfusion)
  have hnew := scheduleStep_words (k := ⟨s.win, s.rk⟩) hl (by omega) hwin hrk
  by_cases hlast : s.rc.toNat + 1 = scheduleSteps s.cfg
  · have hall := hnew.2
    rw [hlast, hcount] at hall
    rw [ksStepEdge_of_last hlast, ← complete_expandDone]
    exact (h.registers.expandDone _ hv hall).inv_complete fun hne => absurd rfl hne
  · rw [ksStepEdge_of_more hlast]
    exact { h with
      roundKeys := fun hk => scheduleStep_keeps_words hl (h.roundKeys hk)
      response := nofun
      busyResponse := fun _ => rfl
      inSchedule := fun _ => by
        simp only [toNat_rc_add_one hrc (by omega)]
        exact ⟨by omega, hnew⟩
      inRounds := fun hb => Seq.noConfusion (hs.symm.trans hb)
      inPack := fun hb => Seq.noConfusion (hs.symm.trans hb) }

theorem roundAt_words {c : Cfg} (hw : c.w ≤ 64) (rk : Vector Word 69) (dir : Dir) (j : Nat)
    {h : Halves} (hh : HalvesAreWords c.w h) : HalvesAreWords c.w (roundAt c rk dir j h) := by
  cases dir with
  | encrypt => exact roundForward_words hw _ hh
  | decrypt => exact roundInverse_words hw _ hh

/-- The accepting edge of ENCRYPT and DECRYPT leaves a good state, with every round still to do (R206). -/
theorem inv_startCipher {s : State} (d : Dir) (h : GoodRegisters s) (hk : s.keyValid = true)
    (hl : s.cfg.Legal) : Inv (startCipher d s) :=
  { h with
    response := nofun
    busyResponse := fun _ => rfl
    busyVariant := fun _ => h.keyOfVariant hk
    inSchedule := nofun
    inRounds := fun _ =>
      ⟨hk, Nat.lt_of_lt_of_le (by decide : 0 < 22) (legal_ranges hl).2.2.1,
        loadHalves_words hl.1 s.inbuf⟩
    inPack := nofun }

/-- A round's edge leaves a good state: one round less to do, or all T done (R206). -/
theorem inv_rfRoundEdge {s : State} (h : Inv s) (hs : s.seq = .rfRound) (hl : s.cfg.Legal) :
    Inv (rfRoundEdge s) := by
  obtain ⟨hk, hrc, hwords⟩ := h.inRounds hs
  have hT := (legal_ranges hl).2.2.2
  have hrc' : (rfRoundEdge s).rc.toNat = s.rc.toNat + 1 := toNat_rc_add_one hrc (by omega)
  have hwords' := roundAt_words (legal_amounts hl).2.1 s.rk s.dir s.rc.toNat
    (h := ⟨s.x, s.y⟩) hwords
  have hseq : (rfRoundEdge s).seq = if s.rc.toNat + 1 = s.cfg.T then .rfPack else .rfRound := rfl
  exact { h.registers with
    response := nofun
    busyResponse := fun _ => rfl
    busyVariant := fun _ => h.keyOfVariant hk
    inSchedule := fun hb => by rw [hseq] at hb; split at hb <;> cases hb
    inRounds := fun hb => by
      have hmore : s.rc.toNat + 1 ≠ s.cfg.T := fun e => by rw [hseq, if_pos e] at hb; cases hb
      exact ⟨hk, by rw [hrc']; exact Nat.lt_of_le_of_ne hrc hmore, hwords'⟩
    inPack := fun hb => by
      have hlast : s.rc.toNat + 1 = s.cfg.T := by
        by_contra e
        rw [hseq, if_neg e] at hb
        cases hb
      exact ⟨hk, hrc'.trans hlast, hwords'⟩ }

theorem inv_rfPackEdge {s : State} (h : GoodRegisters s) : Inv (rfPackEdge s) :=
  have hreg : GoodRegisters { s with outbuf := packHalves s.cfg ⟨s.x, s.y⟩ s.outbuf } := h.frame (by simp)
  hreg.inv_complete fun hne => absurd rfl hne

/-- An edge that accepts no command leaves a good state. -/
theorem seqEdge_keeps_inv {s t : State} (h : Inv s) (he : seqEdge s = .next t) : Inv t := by
  rcases seqEdge_cases he with ⟨hs, rfl⟩ | ⟨hs, hl, rfl⟩ | ⟨hs, hl, rfl⟩ | ⟨-, -, rfl⟩
  · exact GoodRegisters.inv_of_idle { h with } hs nofun
  · exact inv_ksStepEdge h hs hl
  · exact inv_rfRoundEdge h hs hl
  · exact inv_rfPackEdge h.registers

theorem acceptEdge_keeps_inv {i : Instr} {s t : State} (h : Inv s) (ha : acceptEdge i s = .next t) :
    Inv t := by
  rcases acceptEdge_cases ha with hx | ⟨len, -, hc, hl, rfl⟩ | ⟨d, len, -, hc, hl, rfl⟩
  · exact exec_keeps_inv h.registers hx
  · exact inv_startExpand h.registers (checkExpand_eq_ok.mp hc).1 hl
  · exact inv_startCipher d h.registers (checkCipher_eq_ok.mp hc).2.2 hl

/-- What waits at the pins is no part of the invariant. -/
theorem Inv.with_port {s : State} (h : Inv s) (port : List PortEvent) :
    Inv { s with port := port } := { h with }

/-- Settles O44: a step is a reset, a whole command, an illegal word or an edge of the sequencer, and each
keeps the invariant. -/
theorem stepKeepsTheInvariant : Obligations.StepKeepsTheInvariant := by
  intro s t h hstep
  rcases step_cases hstep with ⟨rest, -, rfl⟩ | ⟨c, i, rest, -, -, -, hx⟩ | ⟨c, rest, -, -, rfl⟩ |
    ⟨port, he⟩
  · exact inv_resetAll _
  · exact exec_keeps_inv (h.with_port rest).registers hx
  · exact (h.with_port rest).registers.inv_failed ResultCode.noConfusion
  · exact seqEdge_keeps_inv (h.with_port port) he

/-- Settles O45: an edge is a reset, the accepting edge of a command, an illegal word or an edge of the
sequencer, and each keeps the invariant. -/
theorem clockEdgeKeepsTheInvariant : Obligations.ClockEdgeKeepsTheInvariant := by
  intro s t p h hedge
  rcases clockEdge_cases hedge with ⟨-, rfl⟩ | ⟨-, i, -, ha⟩ | ⟨-, rfl⟩ | he
  · exact inv_resetAll s
  · exact acceptEdge_keeps_inv h ha
  · exact h.registers.inv_failed ResultCode.noConfusion
  · exact seqEdge_keeps_inv h he

end Sys2Proof.Machine

/-! PROOFS: what each command writes, answers and leaves alone (R22-R32, R36, R46, R230, R233), and the life of
KEY_VALID and its schedule (R24, R168). -/

namespace Sys2Proof.Machine

-- The response and the error registers

/-- A command that completes leaves the block idle. -/
theorem exec_seq {i : Instr} {s t : State} (h : exec i s = .next t) : t.seq = .idle := by
  rcases exec_cases h with ⟨-, rfl⟩ | ⟨-, data, u, rfl, -⟩ <;> rfl

/-- Only READ answers data (R46). -/
theorem Effect.data_eq_zero {i : Instr} {s u : State} {data : Byte} (he : Effect i s data u)
    (hr : ∀ addr, i ≠ .read addr) : data = 0 := by
  cases i with
  | read addr => exact absurd rfl (hr addr)
  | _ => exact he.1

/-- Settles O36: a command completes by failing with its check's code or by answering OK, and both leave one
response and an idle block. -/
theorem everyCommandResponds : Obligations.EveryCommandResponds := by
  intro i s t h
  rcases exec_cases h with ⟨-, rfl⟩ | ⟨-, data, u, rfl, he⟩
  · exact ⟨checkOf i s, 0, rfl, fun _ => rfl, rfl⟩
  · exact ⟨.ok, data, rfl, he.data_eq_zero, rfl⟩

/-- A command that answers OK leaves ERR and ERRCODE, but for CLRERR and SRESET, which clear both (R26,
R27). -/
theorem Effect.errorRegisters {i : Instr} {s u : State} {data : Byte} (he : Effect i s data u) :
    if i = .clrerr ∨ i = .sreset then u.err = false ∧ u.errcode = 0
    else u.err = s.err ∧ u.errcode = s.errcode := by
  cases i with
  | nop | wkey | win | read | clrerr | sreset => obtain ⟨-, rfl⟩ := he; simp
  | select => obtain ⟨-, -, rfl⟩ := he; simp
  | expand | encrypt | decrypt => obtain ⟨-, -, -, rfl⟩ := he; simp

/-- Settles O35: a failing command answers the code it records, which is not 0, and a command that answers OK
leaves the error registers as its effect does. -/
theorem errorRegistersFollowTheResponses : Obligations.ErrorRegistersFollowTheResponses := by
  intro i s t r h hr
  rcases exec_cases h with ⟨hc, rfl⟩ | ⟨-, data, u, rfl, he⟩
  · obtain rfl : responseWord (checkOf i s) 0 = r := Option.some.inj hr
    rw [responseWord_code]
    exact ⟨fun _ => ⟨rfl, rfl⟩, fun h0 => absurd (toByte_eq_zero.mp h0) hc⟩
  · obtain rfl : responseWord .ok data = r := Option.some.inj hr
    rw [responseWord_code]
    exact ⟨fun h0 => absurd rfl h0, fun _ => he.errorRegisters⟩

-- Which commands write which state

/-- Settles O37: a failing command writes none of the state in question, and the effect of each other command
writes what is its own. -/
theorem stateIsWrittenOnlyByItsCommands : Obligations.StateIsWrittenOnlyByItsCommands := by
  intro i s t h hreset
  rcases exec_cases h with ⟨-, rfl⟩ | ⟨-, data, u, rfl, he⟩
  · simp [failed]
  · cases i with
    | nop | wkey | win | read | clrerr => obtain ⟨-, rfl⟩ := he; simp
    | select => obtain ⟨-, -, rfl⟩ := he; simp
    | expand | encrypt | decrypt => obtain ⟨-, -, -, rfl⟩ := he; simp
    | sreset => exact absurd rfl hreset

-- KEY_VALID and the schedule it stands for

/-- Settles O38: of the commands that can write KEY_VALID (O37), EXPAND sets it and SELECT and SRESET clear it,
when they do not fail. -/
theorem keyValidIsSetByExpandAndClearedBySelect :
    Obligations.KeyValidIsSetByExpandAndClearedBySelect := by
  intro i s t h hne
  cases i with
  | expand len =>
    rcases execExpand_eq_next.mp h with ⟨-, rfl⟩ | ⟨-, -, rfl⟩
    · exact absurd rfl hne
    · exact .inl ⟨⟨len, rfl⟩, rfl, rfl⟩
  | select vidx =>
    rcases execSelect_eq_next.mp h with ⟨-, rfl⟩ | ⟨-, rfl⟩
    · exact absurd rfl hne
    · exact .inr (.inl ⟨⟨vidx, rfl⟩, rfl, rfl, rfl⟩)
  | sreset => cases h; exact .inr (.inr ⟨rfl, rfl⟩)
  | _ =>
    have hframe := stateIsWrittenOnlyByItsCommands _ s t h nofun
    exact absurd (hframe.2.1 nofun nofun) hne

/-- The schedule invariant reads SEQ, KEY_VALID, CFG and RK only. -/
theorem KeyScheduled.frame {s t : State} (h : KeyScheduled s)
    (he : t.seq = .idle ∧ t.keyValid = s.keyValid ∧ t.cfg = s.cfg ∧ t.rk = s.rk) :
    KeyScheduled t := by
  obtain ⟨hs, hk, hcfg, hrk⟩ := he
  refine ⟨hs, ?_⟩
  rw [hk, hcfg, hrk]
  exact h.2

/-- What waits at the pins is no part of the schedule invariant. -/
theorem KeyScheduled.with_port {s : State} (h : KeyScheduled s) (port : List PortEvent) :
    KeyScheduled { s with port := port } := h.frame ⟨h.1, rfl, rfl, rfl⟩

/-- Without a valid key an idle block keeps the schedule invariant. -/
theorem keyScheduled_of_no_key {s : State} (hs : s.seq = .idle) (hk : s.keyValid = false) :
    KeyScheduled s :=
  ⟨hs, fun h => Bool.noConfusion (hk.symm.trans h)⟩

/-- A whole command leaves a complete schedule or none: EXPAND writes it with KEY_VALID, and SELECT and SRESET
take KEY_VALID away (R147, R168). -/
theorem exec_keeps_schedule {i : Instr} {s t : State} (h : KeyScheduled s)
    (hx : exec i s = .next t) : KeyScheduled t := by
  cases i with
  | expand len =>
    rcases execExpand_eq_next.mp hx with ⟨-, rfl⟩ | ⟨-, hl, rfl⟩
    · exact h.frame ⟨rfl, rfl, rfl, rfl⟩
    · exact ⟨rfl, fun _ => ⟨hl, s.keybuf, ⟨s.win, s.rk⟩, fun _ _ => rfl⟩⟩
  | select vidx =>
    rcases execSelect_eq_next.mp hx with ⟨-, rfl⟩ | ⟨-, rfl⟩
    · exact h.frame ⟨rfl, rfl, rfl, rfl⟩
    · exact keyScheduled_of_no_key rfl rfl
  | sreset => cases hx; exact keyScheduled_of_no_key rfl rfl
  | _ =>
    obtain ⟨hcfg, hkey, -, -, -, hrk⟩ := stateIsWrittenOnlyByItsCommands _ s t hx nofun
    exact h.frame ⟨exec_seq hx, hkey nofun nofun, (hcfg nofun).1, (hrk nofun).1⟩

/-- With no command in progress only RSP_PENDING falls at an edge (R251, R268). -/
theorem seqEdge_idle {s : State} (hs : s.seq = .idle) :
    seqEdge s = .next { s with rspPending := none } := by
  simp only [seqEdge, hs]

/-- Settles O46: from an idle block a step is a reset, a whole command, an illegal word or an idle edge, and
each keeps the schedule invariant. -/
theorem stepKeepsTheScheduleComplete : Obligations.StepKeepsTheScheduleComplete := by
  intro s t h hstep
  rcases step_cases hstep with ⟨rest, -, rfl⟩ | ⟨c, i, rest, -, -, -, hx⟩ | ⟨c, rest, -, -, rfl⟩ |
    ⟨port, he⟩
  · exact keyScheduled_of_no_key rfl rfl
  · exact exec_keeps_schedule (h.with_port rest) hx
  · exact h.frame ⟨rfl, rfl, rfl, rfl⟩
  · have hport := h.with_port port
    rw [seqEdge_idle hport.1, Host.Outcome.next.injEq] at he
    exact he ▸ hport.frame ⟨hport.1, rfl, rfl, rfl⟩

end Sys2Proof.Machine

/-! PROOFS: the reset values (R50, R222, R260) and what the simple commands do (R101, R124, R125, R147, R221). -/

namespace Sys2Proof.Machine

/-- Settles O43: no variant, no key and no error after reset, and SEQ is IDLE. -/
theorem resetIsGood : Obligations.ResetIsGood :=
  ⟨(GoodRegisters.of_reset rfl rfl rfl rfl rfl).inv_of_idle rfl nofun, keyScheduled_of_no_key rfl rfl⟩

theorem afterReset_resetAll (s : State) : AfterReset (resetAll s) :=
  ⟨rfl, rfl, rfl, rfl, rfl, fun i _ => byteAt_replicate_zero 32 i,
    fun i _ => byteAt_replicate_zero 16 i, fun i _ => byteAt_replicate_zero 16 i, rfl, rfl, rfl⟩

/-- Settles O18: the `rst` pin, the reset event and SRESET all reset the block, whatever it was doing. -/
theorem resetsGiveTheResetValues : Obligations.ResetsGiveTheResetValues := by
  refine ⟨fun s v c => ?_, fun s rest hp => ?_, fun s => ?_, ?_, rfl⟩
  · exact ⟨resetAll s, rfl, afterReset_resetAll s, rfl, rfl, rfl⟩
  · exact ⟨resetAll { s with port := rest }, by simp only [step, stepPort, hp],
      afterReset_resetAll _, rfl, rfl, rfl⟩
  · exact ⟨complete .ok 0 (resetAll s), rfl, afterReset_resetAll s, rfl, rfl, rfl⟩
  · exact afterReset_resetAll State.reset

/-- Settles O20: CLRERR completes from the state with both error registers cleared. -/
theorem clrerrClearsErrAndErrcode : Obligations.ClrerrClearsErrAndErrcode := fun _ => rfl

/-- Settles O21: read after write of the one byte, and of the others. -/
theorem bufferWritesChangeOneByte : Obligations.BufferWritesChangeOneByte :=
  ⟨fun s idx data => ⟨_, rfl, byteAt_setByte_self s.keybuf idx.isLt data,
      fun _ hi => byteAt_setByte_other s.keybuf (Ne.symm hi) data, rfl⟩,
    fun s idx data => ⟨_, rfl, byteAt_setByte_self s.inbuf idx.isLt data,
      fun _ hi => byteAt_setByte_other s.inbuf (Ne.symm hi) data, rfl⟩⟩

/-- The FAMILY bit of a DROM word (R142). -/
theorem family_descriptorOfWord (d : BitVec 34) :
    (descriptorOfWord d).family = if d.getLsbD 1 then .speck else .simon := by
  have hbit : d.extractLsb' 1 1 = BitVec.ofBool (d.getLsbD 1) := by
    ext i hi
    obtain rfl : i = 0 := by omega
    simp
  simp only [descriptorOfWord, Family.ofBit, hbit]
  cases d.getLsbD 1 <;> rfl

/-- The CFG registers that the fields of a DROM word give, at R142's bit positions (R147). -/
theorem cfgOfDescriptor_descriptorOfWord (roms : Roms) (vidx : BitVec 4) (d : BitVec 34) :
    cfgOfDescriptor roms vidx (descriptorOfWord d) =
      { vidx := vidx
        family := if d.getLsbD 1 then .speck else .simon
        wbits := d.extractLsb' 2 7
        kwords := d.extractLsb' 9 3
        rounds := d.extractLsb' 12 7
        alpha := if d.getLsbD 1 then d.extractLsb' 19 6 else 0
        beta := if d.getLsbD 1 then d.extractLsb' 25 6 else 0
        z := if d.getLsbD 1 then 0 else roms.zrom.getD (d.extractLsb' 31 3).toNat 0 } := by
  have hz : roms.zrom[(descriptorOfWord d).zsel.toNat] =
      roms.zrom.getD (d.extractLsb' 31 3).toNat 0 :=
    Array.getElem_eq_getD 0
  rw [cfgOfDescriptor, hz, family_descriptorOfWord]
  cases d.getLsbD 1 <;> rfl

/-- Settles O24: a SELECT that passes its checks loads the CFG registers from the fields of the word. -/
theorem selectLoadsTheDescriptor : Obligations.SelectLoadsTheDescriptor := by
  intro s vidx d hd hc
  subst hd
  refine execSelect_eq_next.mpr (.inr ⟨hc, ?_⟩)
  rw [romDescriptor, cfgOfDescriptor_descriptorOfWord]
  rfl

/-- Settles O10: rotations of w-words are w-words, and the other operators mask their results. -/
theorem operatorsGiveWords : Obligations.OperatorsGiveWords := by
  intro w r a b hw ha _ _
  have hw64 := (wordWidths_le hw).2
  exact ⟨ha.rolW hw64 r, ha.rorW hw64 r, isWord_addW hw64 a b, isWord_subW hw64 a b,
    isWord_xorW hw64 a b, isWord_andW hw64 a b⟩

end Sys2Proof.Machine

/-! PROOFS: a block with a command in progress, at its pins (R34, R44, R265, R268). -/

namespace Sys2Proof.Machine

/-- No edge of the sequencer takes an event from the pins. -/
theorem seqEdge_port {s t : State} (h : seqEdge s = .next t) : t.port = s.port := by
  rcases seqEdge_cases h with ⟨-, rfl⟩ | ⟨-, -, rfl⟩ | ⟨-, -, rfl⟩ | ⟨-, -, rfl⟩
  · rfl
  · by_cases hlast : s.rc.toNat + 1 = scheduleSteps s.cfg
    · rw [ksStepEdge_of_last hlast, expandDone_port]
    · rw [ksStepEdge_of_more hlast]
  · rfl
  · exact rfPackEdge_port s

/-- Settles O17: the edge of a busy block is the sequencer's, whatever is presented. -/
theorem busyBlockIgnoresTheCommandPort : Obligations.BusyBlockIgnoresTheCommandPort := by
  intro s v c rest t hs
  refine ⟨?_, fun hp hstep => ?_⟩
  · rw [clockEdge_busy rfl hs, clockEdge_busy rfl hs]
  · simp only [step, stepPort, hp, if_neg hs] at hstep
    exact seqEdge_port hstep

/-- An edge of the sequencer that leaves the block busy drives no response (R268). -/
theorem seqEdge_silent {s t : State} (h : seqEdge s = .next t) (ht : t.seq ≠ .idle) :
    t.rspPending = none := by
  rcases seqEdge_cases h with ⟨-, rfl⟩ | ⟨-, -, rfl⟩ | ⟨-, -, rfl⟩ | ⟨-, -, rfl⟩
  · rfl
  · by_cases hlast : s.rc.toNat + 1 = scheduleSteps s.cfg
    · rw [ksStepEdge_of_last hlast, expandDone_seq] at ht
      exact absurd rfl ht
    · rw [ksStepEdge_of_more hlast]
  · rfl
  · exact absurd (rfPackEdge_seq s) ht

/-- An accepting edge that leaves the block busy drives no response (R268). -/
theorem acceptEdge_silent {i : Instr} {s t : State} (h : acceptEdge i s = .next t)
    (ht : t.seq ≠ .idle) : t.rspPending = none := by
  rcases acceptEdge_cases h with hx | ⟨len, -, -, -, rfl⟩ | ⟨d, len, -, -, -, rfl⟩
  · exact absurd (exec_seq hx) ht
  · rfl
  · rfl

/-- Before the last edge of its latency a command is in progress, and its edges have driven no response
(R268, R270). -/
theorem clockEdges_command_running {c : CmdWord} {i : Instr} {s : State} (hs : s.seq = .idle)
    (hsel : s.cfgValid = true → s.cfg.Legal) (hd : decode c = .command i) {ps : List Pins}
    (hrst : ∀ p ∈ ps, p.rst = false) (hlen : ps.length + 1 < latency i s) :
    ∃ t, clockEdges (⟨false, true, c⟩ :: ps) s = .next t ∧ t.seq ≠ .idle ∧ t.rspPending = none := by
  cases command_has_course i hsel with
  | oneCycle hlat hedge => omega
  | sequenced chain N hlat hstart hbusy hstep hdone =>
    have hN : ps.length < N := by omega
    refine ⟨chain ps.length, ?_, hbusy _ hN, ?_⟩
    · rw [clockEdges_cons_next ((clockEdge_accepts hs hd).trans hstart),
        clockEdges_chain hbusy hstep hrst (by omega), Nat.zero_add]
    · cases hn : ps.length with
      | zero => exact acceptEdge_silent hstart (hbusy 0 (by omega))
      | succ n => exact seqEdge_silent (hstep n (by omega)) (hbusy (n + 1) (by omega))

/-- Settles O49: only a command with a chain of busy states takes more than one edge, and before the last of
them the block is in that chain. -/
theorem noResponseBeforeTheLatency : Obligations.NoResponseBeforeTheLatency := by
  intro s c ps hs hsel hrst hlen
  unfold wordLatency at hlen
  split at hlen
  · next i hd =>
    obtain ⟨t, ht, hbusy, hrsp⟩ := clockEdges_command_running hs hsel hd hrst hlen
    exact ⟨t, ht, by simp [busy, hbusy], by simp [rspValid, hrsp], by simp [cmdReady, hbusy]⟩
  · omega

end Sys2Proof.Machine

/-! PROOFS: what the host can learn (R28, R36, R65, R211). -/

namespace Sys2Proof.Machine

theorem SameToHost.wb {s t : State} (h : SameToHost s t) : s.cfg.wb = t.cfg.wb := by
  obtain ⟨-, -, -, -, -, -, -, hw, -⟩ := h
  rw [Cfg.wb, Cfg.wb, Cfg.w, Cfg.w, hw]

/-- A READ answers from what `SameToHost` names (R65). -/
theorem readWindow_congr {s t : State} (h : SameToHost s t) (addr : BitVec 8) :
    readWindow s addr = readWindow t addr := by
  have hwb := SameToHost.wb h
  obtain ⟨hout, hv, hk, herr, hcode, hvidx, hfam, hw, hm, hT, ha, hb, -⟩ := h
  simp only [readWindow, statusByte, hout, hv, hk, herr, hcode, hvidx, hfam, hw, hm, hT, ha, hb, hwb]

/-- A command's check reads the ROMs and what `SameToHost` names. -/
theorem checkOf_congr {s t : State} (hroms : s.roms = t.roms) (h : SameToHost s t) (i : Instr) :
    checkOf i s = checkOf i t := by
  have hwb := SameToHost.wb h
  obtain ⟨-, hv, hk, -, -, -, -, -, hkwords, -⟩ := h
  have hm : s.cfg.m = t.cfg.m := congrArg BitVec.toNat hkwords
  cases i with
  | select vidx => rw [checkOf, checkOf, hroms]
  | expand len => simp only [checkOf, checkExpand, hv, hm, hwb]
  | encrypt len => simp only [checkOf, checkCipher, hv, hk, hwb]
  | decrypt len => simp only [checkOf, checkCipher, hv, hk, hwb]
  | _ => rfl

/-- The same command that answers OK in two states alike to the host answers the same data, and leaves states
alike but for OUTBUF, which only ENCRYPT and DECRYPT write. -/
theorem Effect.sameToHost {i : Instr} {s t u v : State} {data data' : Byte}
    (hroms : s.roms = t.roms) (h : SameToHost s t) (hu : Effect i s data u)
    (hv : Effect i t data' v) :
    data = data' ∧ SameToHost { u with outbuf := v.outbuf, rspPending := v.rspPending } v ∧
    ((∀ n, i ≠ .encrypt n) → (∀ n, i ≠ .decrypt n) → u.outbuf = v.outbuf) := by
  have hread := readWindow_congr h
  obtain ⟨hout, hvalid, hk, herr, hcode, hvidx, hfam, hw, hm, hT, ha, hb, -⟩ := h
  cases i with
  | nop | wkey | win | read | clrerr | sreset =>
    obtain ⟨rfl, rfl⟩ := hu; obtain ⟨rfl, rfl⟩ := hv
    simp [SameToHost, *]
  | select =>
    obtain ⟨rfl, -, rfl⟩ := hu; obtain ⟨rfl, -, rfl⟩ := hv
    simp [SameToHost, *]
  | expand | encrypt | decrypt =>
    obtain ⟨rfl, -, -, rfl⟩ := hu; obtain ⟨rfl, -, -, rfl⟩ := hv
    simp [SameToHost, *]

theorem sameToHost_complete {u v : State} (code : ResultCode) (data : Byte)
    (h : SameToHost { u with outbuf := v.outbuf, rspPending := v.rspPending } v) :
    SameToHost { complete code data u with outbuf := v.outbuf } (complete code data v) := by
  obtain ⟨-, hvalid, hk, herr, hcode, hvidx, hfam, hw, hm, hT, ha, hb, -⟩ := h
  exact ⟨rfl, hvalid, hk, herr, hcode, hvidx, hfam, hw, hm, hT, ha, hb, rfl⟩

/-- Settles O40: in two states alike to the host a command fails with the same code or answers OK with the same
data, and leaves states alike but for OUTBUF, which only ENCRYPT and DECRYPT write. -/
theorem secretsReachTheHostOnlyThroughTheCipher :
    Obligations.SecretsReachTheHostOnlyThroughTheCipher := by
  intro i s t hs ht hroms h
  obtain ⟨s', hs'⟩ := exec_completes i hs.selected
  obtain ⟨t', ht'⟩ := exec_completes i ht.selected
  have hcheck := checkOf_congr hroms h i
  refine ⟨s', t', hs', ht', ?_⟩
  rcases exec_cases hs' with ⟨hc, rfl⟩ | ⟨hc, data, u, rfl, hu⟩ <;>
    rcases exec_cases ht' with ⟨hc', rfl⟩ | ⟨hc', data', v, rfl, hv⟩
  · rw [hcheck]
    obtain ⟨hout, hvalid, hk, -, -, hvidx, hfam, hw, hm, hT, ha, hb, -⟩ := h
    have hfail : SameToHost (failed (checkOf i t) s) (failed (checkOf i t) t) :=
      ⟨hout, hvalid, hk, rfl, rfl, hvidx, hfam, hw, hm, hT, ha, hb, rfl⟩
    exact ⟨rfl, fun _ => hfail, rfl, hfail.2⟩
  · exact absurd (hcheck.trans hc') hc
  · exact absurd (hcheck.symm.trans hc) hc'
  · obtain ⟨rfl, hregs, hout⟩ := hu.sameToHost hroms h hv
    have hdone := sameToHost_complete .ok data hregs
    exact ⟨rfl, fun hi => ⟨hout hi.1 hi.2, hdone.2⟩, hdone⟩

end Sys2Proof.Machine

/-! PROOFS: the ROMs, the read window and the byte-packing of the buffers, and the commands that leave the same
state when they run again (R61, R65, R67, R69, R121). -/

namespace Sys2Proof.Machine

-- Unpack

theorem getLsbD_byteOf (v : Word) (b : Nat) {i : Nat} (hi : i < 8) :
    (byteOf v b).getLsbD i = v.getLsbD (8 * b + i) := by
  simp [byteOf, hi]

/-- Settles O11: an unpacked word is a w-word whose bytes are the buffer's, and bit k is in byte k / 8. -/
theorem unpackIsLittleEndian : Obligations.UnpackIsLittleEndian := by
  intro n c buf j hw
  refine ⟨isWord_unpack hw buf j, fun k hk => ?_, fun b hb => byteOf_unpack hw buf j hb⟩
  have hbyte : k / 8 < c.wb := by have := wb_facts hw; omega
  rw [← byteOf_unpack hw buf j hbyte, getLsbD_byteOf _ _ (Nat.mod_lt k (by decide)), Nat.div_add_mod]

-- The read window

theorem readWindow_outbuf (s : State) {addr : BitVec 8} (h : addr.toNat ≤ 0x0F) :
    readWindow s addr = byteAt s.outbuf addr.toNat :=
  if_pos (Nat.lt_succ_of_le h)

/-- The addresses above REV are not listed (R65). -/
theorem readWindow_unlisted (s : State) {addr : BitVec 8} (h : 0x1C ≤ addr.toNat) :
    readWindow s addr = 0 := by
  unfold readWindow
  rw [if_neg (by omega)]
  split
  case h_13 => rfl
  all_goals omega

theorem statusByte_bits (s : State) :
    (statusByte s).getLsbD 0 = s.cfgValid ∧ (statusByte s).getLsbD 1 = s.keyValid ∧
    (statusByte s).getLsbD 2 = s.err ∧ (statusByte s).extractLsb' 3 5 = 0 := by
  unfold statusByte
  generalize s.err = err, s.keyValid = keyValid, s.cfgValid = cfgValid
  revert err keyValid cfgValid
  decide

theorem family_byte (f : Family) : f.bit.setWidth 8 = if f = .speck then 1#8 else 0#8 := by
  cases f <;> rfl

/-- WBYTES as a number: a 7-bit width has at most 16 bytes (R23, R65). -/
theorem toNat_wbytes (c : Cfg) (valid : Bool) :
    (if valid then BitVec.ofNat 8 c.wb else 0 : Byte).toNat =
      if valid then (c.wbits.toNat + 7) / 8 else 0 := by
  have hfit : c.wb < 2 ^ 8 := by have := c.wbits.isLt; unfold Cfg.wb Cfg.w; omega
  cases valid with
  | false => rfl
  | true => exact (BitVec.toNat_ofNat c.wb 8).trans (Nat.mod_eq_of_lt hfit)

/-- Settles O22: READ answers `readWindow`, whose branches are the rows of R65; the narrower registers are
zero-extended. -/
theorem readReturnsTheWindowMap : Obligations.ReadReturnsTheWindowMap := by
  intro s addr
  refine ⟨readWindow s addr, rfl, readWindow_outbuf s, ?status, ?errcode, ?vidx, ?family, ?wbits,
    ?kwords, ?rounds, ?alpha, ?beta, ?wbytes, ?id, ?rev, readWindow_unlisted s⟩
  case status => rintro rfl; exact statusByte_bits s
  case errcode | id | rev => rintro rfl; rfl
  case vidx => rintro rfl; exact BitVec.toNat_setWidth_of_le (b := s.cfg.vidx) (by decide : 4 ≤ 8)
  case family => rintro rfl; exact family_byte s.cfg.family
  case wbits => rintro rfl; exact BitVec.toNat_setWidth_of_le (b := s.cfg.wbits) (by decide : 7 ≤ 8)
  case kwords => rintro rfl; exact BitVec.toNat_setWidth_of_le (b := s.cfg.kwords) (by decide : 3 ≤ 8)
  case rounds => rintro rfl; exact BitVec.toNat_setWidth_of_le (b := s.cfg.rounds) (by decide : 7 ≤ 8)
  case alpha => rintro rfl; exact BitVec.toNat_setWidth_of_le (b := s.cfg.alpha) (by decide : 6 ≤ 8)
  case beta => rintro rfl; exact BitVec.toNat_setWidth_of_le (b := s.cfg.beta) (by decide : 6 ≤ 8)
  case wbytes => rintro rfl; exact toNat_wbytes s.cfg s.cfgValid

-- The ROMs

theorem Effect.roms {i : Instr} {s u : State} {data : Byte} (he : Effect i s data u) :
    u.roms = s.roms := by
  cases i with
  | nop | wkey | win | read | clrerr | sreset => obtain ⟨-, rfl⟩ := he; rfl
  | select => obtain ⟨-, -, rfl⟩ := he; rfl
  | expand | encrypt | decrypt => obtain ⟨-, -, -, rfl⟩ := he; rfl

theorem exec_roms {i : Instr} {s t : State} (h : exec i s = .next t) : t.roms = s.roms := by
  rcases exec_cases h with ⟨-, rfl⟩ | ⟨-, data, u, rfl, he⟩
  · rfl
  · exact he.roms

theorem acceptEdge_roms {i : Instr} {s t : State} (h : acceptEdge i s = .next t) :
    t.roms = s.roms := by
  rcases acceptEdge_cases h with hx | ⟨len, -, -, -, rfl⟩ | ⟨d, len, -, -, -, rfl⟩
  · exact exec_roms hx
  · exact startExpand_roms s
  · exact startCipher_roms d s

theorem seqEdge_roms {s t : State} (h : seqEdge s = .next t) : t.roms = s.roms := by
  rcases seqEdge_cases h with ⟨-, rfl⟩ | ⟨-, -, rfl⟩ | ⟨-, -, rfl⟩ | ⟨-, -, rfl⟩
  · rfl
  · by_cases hlast : s.rc.toNat + 1 = scheduleSteps s.cfg
    · rw [ksStepEdge_of_last hlast, expandDone_roms]
    · rw [ksStepEdge_of_more hlast]
  · rfl
  · exact rfPackEdge_roms s

theorem step_roms {s t : State} (h : step s = .next t) : t.roms = s.roms := by
  rcases step_cases h with ⟨rest, -, rfl⟩ | ⟨c, i, rest, -, -, -, hx⟩ | ⟨c, rest, -, -, rfl⟩ |
    ⟨port, he⟩
  · rfl
  · exact (exec_roms hx :)
  · rfl
  · exact (seqEdge_roms he :)

theorem clockEdge_roms {p : Pins} {s t : State} (h : clockEdge p s = .next t) :
    t.roms = s.roms := by
  rcases clockEdge_cases h with ⟨-, rfl⟩ | ⟨-, i, -, ha⟩ | ⟨-, rfl⟩ | he
  · rfl
  · exact acceptEdge_roms ha
  · rfl
  · exact seqEdge_roms he

/-- Settles O39: resets, commands, illegal words and edges of the sequencer all keep the ROMs. -/
theorem romsNeverChange : Obligations.RomsNeverChange :=
  fun _ _ _ h => h.elim step_roms clockEdge_roms

-- Commands that run again

theorem setByte_setByte {n : Nat} (buf : Vector Byte n) (i : Nat) (b : Byte) :
    setByte (setByte buf i b) i b = setByte buf i b :=
  buffer_ext fun j _ => by simp only [byteAt_setByte]; split <;> rfl

theorem readWindow_complete (code : ResultCode) (data : Byte) (s : State) (addr : BitVec 8) :
    readWindow (complete code data s) addr = readWindow s addr := rfl

/-- The result of a cipher command overwrites all of OUTBUF, so writing it again changes nothing (R205). -/
theorem cipherDone_cipherDone {s : State} (hw : s.cfg.w ∈ wordWidths) (d : Dir) (h : Halves) :
    cipherDone d h (cipherDone d h s) = cipherDone d h s := by
  have hout : packHalves s.cfg h (packHalves s.cfg h s.outbuf) = packHalves s.cfg h s.outbuf :=
    packHalves_congr hw h _ _
  simp only [cipherDone, complete, hout]

/-- ENCRYPT and DECRYPT write nothing that their checks, their rounds or a failure read (R67). -/
theorem runCipher_again {d : Dir} {len : BitVec 6} {s t : State}
    (h : runCipher d len s = .next t) : runCipher d len t = .next t := by
  rcases runCipher_eq_next.mp h with ⟨hc, rfl⟩ | ⟨hc, hl, rfl⟩
  · exact runCipher_eq_next.mpr (.inl ⟨hc, rfl⟩)
  · exact runCipher_eq_next.mpr (.inr ⟨hc, hl, (cipherDone_cipherDone hl.1 d _).symm⟩)

theorem execWkey_again (idx : BitVec 5) (b : Byte) {s t : State}
    (h : execWkey idx b s = .next t) : execWkey idx b t = .next t := by
  cases h
  simp only [execWkey, respondOk, complete, setByte_setByte]

theorem execWin_again (idx : BitVec 4) (b : Byte) {s t : State}
    (h : execWin idx b s = .next t) : execWin idx b t = .next t := by
  cases h
  simp only [execWin, respondOk, complete, setByte_setByte]

theorem execRead_again (addr : BitVec 8) {s t : State}
    (h : execRead addr s = .next t) : execRead addr t = .next t := by
  cases h
  rw [execRead, readWindow_complete]
  rfl

/-- Settles O42: each of the five commands, run on the state it left, leaves that state. -/
theorem repeatedCommandsLeaveTheSameState : Obligations.RepeatedCommandsLeaveTheSameState := by
  intro i s t hi h
  rcases hi with ⟨addr, rfl⟩ | ⟨idx, b, rfl⟩ | ⟨idx, b, rfl⟩ | ⟨len, rfl⟩ | ⟨len, rfl⟩
  · exact execRead_again addr h
  · exact execWkey_again idx b h
  · exact execWin_again idx b h
  · exact runCipher_again (d := .encrypt) h
  · exact runCipher_again (d := .decrypt) h

end Sys2Proof.Machine

/-! PROOFS: the encoder and the decoder are inverse to each other, and the opcode map says the same as both
(R80, R87-R91). -/

namespace Sys2Proof.Laws

-- What each function says of one word

theorem accepting_eq_command {lo : Nat} {c : CmdWord} {mnemonic : String} {i j : Instr} :
    accepting lo c mnemonic i = .command j ↔ reservedClear lo c = true ∧ i = j := by
  unfold accepting
  split <;> simp_all

/-- The two operands of format W are the low bits of the word (R83). -/
theorem or_fields_of_word (n : Nat) (base c : CmdWord) :
    base ||| (c.extractLsb' 8 n).setWidth 32 <<< 8 ||| (c.extractLsb' 0 8).setWidth 32 =
      base ||| (c.extractLsb' 0 (n + 8)).setWidth 32 := by
  rw [or_fields, BitVec.extractLsb'_append_extractLsb'_eq_extractLsb' (Nat.zero_add 8).symm]

/-- A word of fixed bits and one low operand: its opcode is that of the fixed bits, no reserved bit is set, and
the operand is read back (R80). -/
theorem fields_of_operandWord {n : Nat} {base : CmdWord} (hn : n ≤ 28)
    (hbase : base.extractLsb' 0 28 = 0#28) (f : BitVec n) :
    opField (base ||| f.setWidth 32) = opField base ∧
    reservedClear n (base ||| f.setWidth 32) = true ∧
    (base ||| f.setWidth 32).extractLsb' 0 n = f := by
  have hclear {lo len : Nat} (h : lo + len ≤ 28) : base.extractLsb' lo len = 0 := by
    apply BitVec.eq_of_getLsbD_eq
    intro j hj
    have hbit := congrArg (BitVec.getLsbD · (lo + j)) hbase
    simpa [hj, show lo + j < 28 by omega] using hbit
  refine ⟨opField_or hn base f, ?_, extract_or (by omega) base (hclear (by omega)) f⟩
  rw [reservedClear_or le_rfl, reservedClear, hclear (by omega), beq_self_eq_true]

/-- A word with a known opcode and no reserved bit set is the opcode and its operand bits (R80). -/
theorem word_of_opcode {lo op : Nat} {base c : CmdWord} (hbase : BitVec.ofNat 32 op <<< 28 = base)
    (hlo : lo ≤ 28) (hop : (opField c).toNat = op) (hr : reservedClear lo c = true) :
    base ||| (c.extractLsb' 0 lo).setWidth 32 = c := by
  rw [← hbase, ← hop, BitVec.ofNat_toNat]
  exact (rebuild_word hlo c hr).symm

/-- A word with a known opcode, no operand and no reserved bit set is the opcode alone (R81). -/
theorem word_of_opcode_alone {op : Nat} {base c : CmdWord} (hbase : BitVec.ofNat 32 op <<< 28 = base)
    (hop : (opField c).toNat = op) (hr : reservedClear 0 c = true) : base = c := by
  have h := word_of_opcode hbase (Nat.zero_le _) hop hr
  rwa [BitVec.of_length_zero (x := c.extractLsb' 0 0), BitVec.setWidth_zero, BitVec.or_zero] at h

-- Decoding after encoding

theorem decode_encode (i : Instr) : decode (encode i) = .command i := by
  cases i with
  | nop => decide
  | select vidx =>
    obtain ⟨hop, hr, hf⟩ := fields_of_operandWord (base := 0x10000000#32) (by decide) (by decide) vidx
    rw [encode, decode, hop]
    exact accepting_eq_command.mpr ⟨hr, congrArg Instr.select hf⟩
  | wkey idx data =>
    obtain ⟨hop, hr, hf⟩ :=
      fields_of_operandWord (base := 0x20000000#32) (by decide) (by decide) (idx ++ data)
    rw [encode, or_fields, decode, hop]
    exact accepting_eq_command.mpr
      ⟨hr, congrArg₂ Instr.wkey (extract_append_high _ _ _ hf) (extract_append_low _ _ _ hf)⟩
  | win idx data =>
    obtain ⟨hop, hr, hf⟩ :=
      fields_of_operandWord (base := 0x30000000#32) (by decide) (by decide) (idx ++ data)
    rw [encode, or_fields, decode, hop]
    exact accepting_eq_command.mpr
      ⟨hr, congrArg₂ Instr.win (extract_append_high _ _ _ hf) (extract_append_low _ _ _ hf)⟩
  | expand len =>
    obtain ⟨hop, hr, hf⟩ := fields_of_operandWord (base := 0x40000000#32) (by decide) (by decide) len
    rw [encode, decode, hop]
    exact accepting_eq_command.mpr ⟨hr, congrArg Instr.expand hf⟩
  | encrypt len =>
    obtain ⟨hop, hr, hf⟩ := fields_of_operandWord (base := 0x50000000#32) (by decide) (by decide) len
    rw [encode, decode, hop]
    exact accepting_eq_command.mpr ⟨hr, congrArg Instr.encrypt hf⟩
  | decrypt len =>
    obtain ⟨hop, hr, hf⟩ := fields_of_operandWord (base := 0x60000000#32) (by decide) (by decide) len
    rw [encode, decode, hop]
    exact accepting_eq_command.mpr ⟨hr, congrArg Instr.decrypt hf⟩
  | read addr =>
    obtain ⟨hop, hr, hf⟩ := fields_of_operandWord (base := 0x70000000#32) (by decide) (by decide) addr
    rw [encode, decode, hop]
    exact accepting_eq_command.mpr ⟨hr, congrArg Instr.read hf⟩
  | clrerr => decide
  | sreset => decide

/-- Settles O2. -/
theorem decodeOfEncodeIsTheCommand : Obligations.DecodeOfEncodeIsTheCommand := decode_encode

-- Encoding after decoding

theorem encode_of_decode {c : CmdWord} {i : Instr} (h : decode c = .command i) : encode i = c := by
  unfold decode at h
  split at h
  case h_11 => cases h
  all_goals obtain ⟨hr, rfl⟩ := accepting_eq_command.mp h
  case h_1 hop | h_9 hop | h_10 hop => exact word_of_opcode_alone (by decide) hop hr
  case h_2 hop | h_5 hop | h_6 hop | h_7 hop | h_8 hop =>
    exact word_of_opcode (by decide) (by decide) hop hr
  case h_3 hop | h_4 hop =>
    rw [encode, or_fields_of_word]
    exact word_of_opcode (by decide) (by decide) hop hr

/-- Settles O3. -/
theorem encodeOfDecodeIsTheWord : Obligations.EncodeOfDecodeIsTheWord := fun _ _ => encode_of_decode

theorem decode_eq_command_iff {c : CmdWord} {i : Instr} : decode c = .command i ↔ encode i = c :=
  ⟨encode_of_decode, fun h => h ▸ decode_encode i⟩

-- The opcode map

/-- The rows of the opcode map differ in their mnemonics. -/
theorem row_eq_of_mnemonic_eq : ∀ row ∈ opcodeTable, ∀ row' ∈ opcodeTable,
    row.mnemonic = row'.mnemonic → row = row' := by decide

/-- Every command's word matches the row with the command's mnemonic (R87). -/
theorem encode_matches (i : Instr) : EncodeMatchesTable.Statement i := by
  cases i with
  | nop => exact EncodeMatchesTable.nop
  | select vidx => exact EncodeMatchesTable.select vidx
  | wkey idx data => exact EncodeMatchesTable.wkey idx data
  | win idx data => exact EncodeMatchesTable.win idx data
  | expand len => exact EncodeMatchesTable.expand len
  | encrypt len => exact EncodeMatchesTable.encrypt len
  | decrypt len => exact EncodeMatchesTable.decrypt len
  | read addr => exact EncodeMatchesTable.read addr
  | clrerr => exact EncodeMatchesTable.clrerr
  | sreset => exact EncodeMatchesTable.sreset

/-- A word that matches a row is the word of a command with the row's mnemonic, its operands being the bits
below the mask (R87). -/
theorem exists_encode_of_match {c : CmdWord} {row : OpcodeRow} (hrow : row ∈ opcodeTable)
    (h : c &&& row.mask = row.pattern) : ∃ i, encode i = c ∧ i.mnemonic = row.mnemonic := by
  simp only [opcodeTable, List.mem_cons, List.not_mem_nil, or_false] at hrow
  obtain rfl | rfl | rfl | rfl | rfl | rfl | rfl | rfl | rfl | rfl := hrow
  · exact ⟨.nop, h.symm.trans BitVec.and_allOnes, rfl⟩
  · exact ⟨.select _, (rebuild_match (lo := 4) (by decide) (by decide) h).symm, rfl⟩
  · exact ⟨.wkey _ _, (or_fields_of_word _ _ _).trans
      (rebuild_match (lo := 13) (by decide) (by decide) h).symm, rfl⟩
  · exact ⟨.win _ _, (or_fields_of_word _ _ _).trans
      (rebuild_match (lo := 12) (by decide) (by decide) h).symm, rfl⟩
  · exact ⟨.expand _, (rebuild_match (lo := 6) (by decide) (by decide) h).symm, rfl⟩
  · exact ⟨.encrypt _, (rebuild_match (lo := 6) (by decide) (by decide) h).symm, rfl⟩
  · exact ⟨.decrypt _, (rebuild_match (lo := 6) (by decide) (by decide) h).symm, rfl⟩
  · exact ⟨.read _, (rebuild_match (lo := 8) (by decide) (by decide) h).symm, rfl⟩
  · exact ⟨.clrerr, h.symm.trans BitVec.and_allOnes, rfl⟩
  · exact ⟨.sreset, h.symm.trans BitVec.and_allOnes, rfl⟩

/-- A word matches a row exactly when it is a command with the row's mnemonic (R87). -/
theorem matches_iff_decode (c : CmdWord) {row : OpcodeRow} (hrow : row ∈ opcodeTable) :
    c &&& row.mask = row.pattern ↔ ∃ i, decode c = .command i ∧ i.mnemonic = row.mnemonic := by
  simp only [decode_eq_command_iff]
  refine ⟨exists_encode_of_match hrow, ?_⟩
  rintro ⟨i, rfl, hm⟩
  obtain ⟨row', hrow', hm', hmatch⟩ := encode_matches i
  rwa [row_eq_of_mnemonic_eq row hrow row' hrow' (hm.symm.trans hm'.symm)]

/-- Settles O4. -/
theorem opcodeMapDecidesEveryWord : Obligations.OpcodeMapDecidesEveryWord := by
  refine ⟨fun c row hrow => matches_iff_decode c hrow, ?_, ?_⟩
  · intro c row row' hrow hrow' h h'
    obtain ⟨i, hi, hm⟩ := (matches_iff_decode c hrow).mp h
    obtain ⟨j, hj, hm'⟩ := (matches_iff_decode c hrow').mp h'
    obtain rfl : i = j := Decoded.command.inj (hi.symm.trans hj)
    exact row_eq_of_mnemonic_eq row hrow row' hrow' (hm.symm.trans hm')
  · intro c
    cases hd : decode c with
    | command i =>
      obtain ⟨row, hrow, hm, hmatch⟩ := encode_matches i
      rw [encode_of_decode hd] at hmatch
      exact ⟨fun ⟨_, hwhy⟩ => (by cases hwhy), fun hnone => absurd hmatch (hnone row hrow)⟩
    | illegal why =>
      refine ⟨fun _ row hrow hmatch => ?_, fun _ => ⟨why, rfl⟩⟩
      obtain ⟨i, hi, -⟩ := (matches_iff_decode c hrow).mp hmatch
      rw [hd] at hi
      cases hi

/-- Settles O1: each word is decoded by evaluation. -/
theorem specWordsDecode : Obligations.SpecWordsDecode := by
  unfold Obligations.SpecWordsDecode
  decide

end Sys2Proof.Laws

/-! PROOFS: the assembler's words for each source line, and how it reads a line of text (R91, R92, log
entry 9). -/

namespace Sys2Proof

-- The words of a source line, before the range checks

/-- The words the lines of a command or pseudo-command stand for (R91, R92). -/
def SourceCommand.words (line : SourceCommand) : Option (List CmdWord) :=
  line.lines.mapM fun l => l.value.map (BitVec.ofNat 32)

theorem assemble_eq (line : SourceCommand) :
    assemble line = if line.wellFormed then line.words else none := rfl

/-- Lines with a byte and its place in the list assemble to their words in order. -/
theorem mapM_words_mapIdx {line : Nat → Nat → SourceCommand} {word : Nat → Nat → Nat}
    (h : ∀ k b, (line k b).value = some (word k b)) (bytes : List Nat) :
    (bytes.zipIdx.map fun b => line b.2 b.1).mapM (fun l => l.value.map (BitVec.ofNat 32)) =
      some (bytes.mapIdx fun k b => BitVec.ofNat 32 (word k b)) := by
  rw [List.mapIdx_eq_zipIdx_map]
  exact mapM_words (fun b : Nat × Nat => line b.2 b.1) (fun b => word b.2 b.1) (fun b => h b.2 b.1) _

theorem words_wkeys (bytes : List Nat) : (SourceCommand.wkeys bytes).words =
    some (bytes.mapIdx fun k b => BitVec.ofNat 32 (0x20000000 ||| k <<< 8 ||| b)) :=
  mapM_words_mapIdx (line := .wkey) (fun _ _ => rfl) bytes

theorem words_wins (bytes : List Nat) : (SourceCommand.wins bytes).words =
    some (bytes.mapIdx fun k b => BitVec.ofNat 32 (0x30000000 ||| k <<< 8 ||| b)) :=
  mapM_words_mapIdx (line := .win) (fun _ _ => rfl) bytes

theorem words_readout (n : Nat) : (SourceCommand.readout n).words =
    some ((List.range n).map fun k => BitVec.ofNat 32 (0x70000000 ||| k)) :=
  mapM_words .read (0x70000000 ||| ·) (fun _ => rfl) _

theorem words_loadkey (bytes : List Nat) : (SourceCommand.loadkey bytes).words =
    some ((bytes.mapIdx fun k b => BitVec.ofNat 32 (0x20000000 ||| k <<< 8 ||| b)) ++
      [BitVec.ofNat 32 (0x40000000 ||| bytes.length)]) := by
  rw [SourceCommand.words, SourceCommand.lines, List.mapM_append,
    mapM_words_mapIdx (line := .wkey) (fun _ _ => rfl)]
  rfl

/-- Every line has words; only the range checks refuse one (R91). -/
theorem words_isSome (line : SourceCommand) : line.words.isSome = true := by
  cases line with
  | wkeys bytes => rw [words_wkeys]; rfl
  | wins bytes => rw [words_wins]; rfl
  | readout n => rw [words_readout]; rfl
  | loadkey bytes => rw [words_loadkey]; rfl
  | _ => rfl

theorem assemble_eq_none_iff (line : SourceCommand) :
    assemble line = none ↔ line.wellFormed = false := by
  have hsome := words_isSome line
  rw [assemble_eq]
  cases line.wellFormed with
  | false => simp
  | true => simpa [Option.isSome_iff_ne_none] using hsome

/-- A line with known words, under the range check in numbers. -/
theorem assemble_of_words {line : SourceCommand} {ws : List CmdWord} {inRange : Prop}
    [Decidable inRange] (hwords : line.words = some ws) (hrange : line.wellFormed = true ↔ inRange) :
    assemble line = if inRange then some ws else none := by
  simp only [assemble_eq, hwords, hrange]

theorem bounded_bytes_iff (bytes : List Nat) (bound : Nat) :
    (decide (bytes.length ≤ bound) && allBytes bytes) = true ↔
      bytes.length ≤ bound ∧ ∀ b ∈ bytes, b ≤ 255 := by
  rw [Bool.and_eq_true, decide_eq_true_iff, allBytes_iff]

theorem operand_pair_iff (idx data bound : Nat) :
    (decide (idx ≤ bound) && decide (data ≤ 255)) = true ↔ idx ≤ bound ∧ data ≤ 255 := by
  rw [Bool.and_eq_true, decide_eq_true_iff, decide_eq_true_iff]

-- The words of a command

/-- An operand field as a number and as bits of the word. -/
theorem ofNat_or_toNat {n : Nat} (base : Nat) (f : BitVec n) :
    BitVec.ofNat 32 (base ||| f.toNat) = BitVec.ofNat 32 base ||| f.setWidth 32 := by
  rw [BitVec.ofNat_or, BitVec.ofNat_toNat]

/-- The operand fields of format W as numbers and as bits of the word (R83). -/
theorem ofNat_or_fields {n : Nat} (base : Nat) (idx : BitVec n) (data : Byte) :
    BitVec.ofNat 32 (base ||| idx.toNat <<< 8 ||| data.toNat) =
      BitVec.ofNat 32 base ||| idx.setWidth 32 <<< 8 ||| data.setWidth 32 := by
  have hshift : BitVec.ofNat 32 (idx.toNat <<< 8) = idx.setWidth 32 <<< 8 := by
    apply BitVec.eq_of_toNat_eq
    simp only [BitVec.toNat_ofNat, BitVec.toNat_shiftLeft, BitVec.toNat_setWidth, Nat.shiftLeft_eq,
      Nat.mod_mul_mod]
  rw [ofNat_or_toNat, BitVec.ofNat_or, hshift]

/-- R91's number for a command is the encoder's word. -/
theorem words_toSource (i : Instr) : i.toSource.words = some [encode i] := by
  cases i with
  | nop => rfl
  | select vidx => exact congrArg (fun w => some [w]) (ofNat_or_toNat 0x10000000 vidx)
  | wkey idx data => exact congrArg (fun w => some [w]) (ofNat_or_fields 0x20000000 idx data)
  | win idx data => exact congrArg (fun w => some [w]) (ofNat_or_fields 0x30000000 idx data)
  | expand len => exact congrArg (fun w => some [w]) (ofNat_or_toNat 0x40000000 len)
  | encrypt len => exact congrArg (fun w => some [w]) (ofNat_or_toNat 0x50000000 len)
  | decrypt len => exact congrArg (fun w => some [w]) (ofNat_or_toNat 0x60000000 len)
  | read addr => exact congrArg (fun w => some [w]) (ofNat_or_toNat 0x70000000 addr)
  | clrerr => rfl
  | sreset => rfl

theorem assemble_toSource (i : Instr) : assemble i.toSource = some [encode i] := by
  have hwf : i.toSource.wellFormed = true := Laws.instr_wellFormed i
  rw [assemble_eq, if_pos hwf, words_toSource]

/-- Settles O5: the words of each line, under its range check. -/
theorem assemblerAgreesWithTheEncoder : Obligations.AssemblerAgreesWithTheEncoder := by
  refine ⟨assemble_toSource, assemble_eq_none_iff, rfl, rfl, rfl, rfl, ?select, ?wkey, ?win, ?expand,
    ?encrypt, ?decrypt, ?read, ?word, ?wkeys, ?wins, ?readout, ?loadkey⟩
  case select | expand | encrypt | decrypt | read =>
    exact fun _ => assemble_of_words rfl decide_eq_true_iff
  case wkey | win => exact fun idx data => assemble_of_words rfl (operand_pair_iff idx data _)
  case word =>
    exact fun _ => assemble_of_words rfl (decide_eq_true_iff.trans Nat.lt_succ_iff)
  case wkeys => exact fun bytes => assemble_of_words (words_wkeys bytes) (bounded_bytes_iff bytes 32)
  case wins => exact fun bytes => assemble_of_words (words_wins bytes) (bounded_bytes_iff bytes 16)
  case readout => exact fun n => assemble_of_words (words_readout n) decide_eq_true_iff
  case loadkey => exact fun bytes => assemble_of_words (words_loadkey bytes) (bounded_bytes_iff bytes 32)

-- Lines of text

/-- Settles O50: the mnemonic is cut off by evaluation, and the operand text is read as its numbers. -/
theorem textLinesAreReadAsSourceLines : Obligations.TextLinesAreReadAsSourceLines := by
  refine ⟨rfl, rfl, rfl, rfl, ?one, ?two, ?list, rfl, rfl, rfl⟩
  case one =>
    intro t a ht
    have hops := parseOperands_one ht
    and_intros <;> exact assembleText_of rfl hops rfl
  case two =>
    intro t u a b ht hu
    have hops := parseOperands_two ht hu
    simp only [List.append_assoc] at hops ⊢
    and_intros <;> exact assembleText_of rfl hops rfl
  case list =>
    intro ts bytes hne hts
    have hops := parseOperands_intercalate hne hts
    cases hts with
    | nil => exact absurd rfl hne
    | cons _ _ =>
      and_intros <;> exact assembleText_of rfl hops rfl

end Sys2Proof

/-! PROOFS: the word operators, as numbers and bit by bit (R100-R111). -/

namespace Sys2Proof.Machine

/-- No left rotation at amount 0 (R102). -/
@[simp] theorem rolW_zero (w : Nat) (v : Word) : rolW w v 0 = v := if_pos (.inl rfl)

/-- No right rotation at amount 0 (R103). -/
@[simp] theorem rorW_zero (w : Nat) (v : Word) : rorW w v 0 = v := if_pos (.inl rfl)

/-- `add_w` commutes (R110). -/
theorem addW_comm (w : Nat) (a b : Word) : addW w a b = addW w b a := by
  rw [addW, addW, BitVec.add_comm]

/-- `add_w` associates: masking the inner sum does not change the outer one modulo `2^w` (R110). -/
theorem addW_assoc {w : Nat} (hw : w ≤ 64) (a b c : Word) :
    addW w (addW w a b) c = addW w a (addW w b c) := by
  apply BitVec.eq_of_toNat_eq
  simp only [toNat_addW hw]
  rw [Nat.mod_add_mod, Nat.add_mod_mod, Nat.add_assoc]

/-- Settles O7: the bits of the shifts and their overlap, for every amount up to w. -/
theorem rotationsBitByBit : Obligations.RotationsBitByBit := by
  intro w r j v hw hv hr
  have hw64 := (wordWidths_le hw).2
  exact ⟨getLsbD_rolW hw64 hv hr j, getLsbD_rorW hw64 hv hr j⟩

/-- Settles O8: each bit goes there and back, and amount 0 is the identity. -/
theorem rotationsUndoEachOther : Obligations.RotationsUndoEachOther := by
  intro w r v hw hv hr
  have hw64 := (wordWidths_le hw).2
  exact ⟨rolW_rorW_cancel hw64 hv hr, rorW_rolW_cancel hw64 hv hr, rolW_zero w v, rorW_zero w v⟩

/-- Settles O9: the mask takes a sum or a difference modulo `2^w`, from which the laws follow. -/
theorem arithmeticIsModularInTheWidth : Obligations.ArithmeticIsModularInTheWidth := by
  intro w a b c hw ha hb _
  have hw64 := (wordWidths_le hw).2
  refine ⟨toNat_addW hw64 a b, toNat_subW hw64 hb, ?xorBits, getLsbD_andW hw64 a b,
    addW_comm w a b, addW_assoc hw64 a b c, subW_addW_cancel hw64 ha hb,
    addW_subW_cancel hw64 ha hb, xorW_xorW_cancel ha⟩
  case xorBits =>
    intro j
    rw [getLsbD_xorW, Bool.and_comm]

/-- Settles O6: the five masks, computed. -/
theorem maskOfEachWidth : Obligations.MaskOfEachWidth := ⟨rfl, rfl, rfl, rfl, rfl⟩

end Sys2Proof.Machine

/-! PROOFS: pack and unpack undo each other, and pack writes one word's bytes only (R122, R128). -/

namespace Sys2Proof.Machine

/-- The bytes of a packed word stand least-significant byte first (R61, R122). -/
theorem byteAt_pack_word {n : Nat} {c : Cfg} (buf : Vector Byte n) {j b : Nat} (v : Word)
    (hj : j * c.wb + c.wb ≤ n) (hb : b < c.wb) :
    byteAt (pack c buf j v) (j * c.wb + b) = byteOf v b := by
  rw [byteAt_pack, if_pos (by omega), Nat.add_sub_cancel_left]

/-- Pack leaves the bytes of the other words alone (R122). -/
theorem byteAt_pack_frame {n : Nat} {c : Cfg} (buf : Vector Byte n) {j i : Nat} (v : Word)
    (hi : i < j * c.wb ∨ j * c.wb + c.wb ≤ i) : byteAt (pack c buf j v) i = byteAt buf i := by
  rw [byteAt_pack, if_neg (by omega)]

/-- Settles O12: both directions go through the bytes of the word, which pack writes and unpack reads in
the same order. -/
theorem packAndUnpackRoundTrip : Obligations.PackAndUnpackRoundTrip := by
  intro n c buf buf' j v hw hj hv
  refine ⟨unpack_pack hw buf hj hv, fun b hb => ?packUnpack, fun i hi => byteAt_pack_frame buf v hi⟩
  case packUnpack =>
    rw [byteAt_pack_word buf' _ hj hb, byteOf_unpack hw buf j hb]

end Sys2Proof.Machine

/-! PROOFS: what SELECT checks on a word of the descriptor ROM, and what the default ROM selects (R141, R142,
R144, R146, R147). -/

namespace Sys2Proof.Machine

theorem family_descriptorOfWord_eq_simon_iff (d : BitVec 34) :
    (descriptorOfWord d).family = .simon ↔ d.getLsbD 1 = false := by
  rw [family_descriptorOfWord]
  cases d.getLsbD 1 <;> decide

theorem family_descriptorOfWord_eq_speck_iff (d : BitVec 34) :
    (descriptorOfWord d).family = .speck ↔ d.getLsbD 1 = true := by
  rw [family_descriptorOfWord]
  cases d.getLsbD 1 <;> decide

/-- The code byte of the SELECT checks, on a DROM word at R142's bit positions and R8's bounds (R146, R230). -/
theorem toByte_checkDescriptor_descriptorOfWord (d : BitVec 34) :
    (checkDescriptor (descriptorOfWord d)).toByte =
      if d.getLsbD 0 = false then 0x01#8
      else if (d.extractLsb' 2 7).toNat ∉ [16, 24, 32, 48, 64] then 0x01#8
      else if (d.extractLsb' 9 3).toNat ∉ [2, 3, 4] then 0x01#8
      else if (d.extractLsb' 12 7).toNat < 22 ∨ (d.extractLsb' 12 7).toNat > 69 then 0x01#8
      else if d.getLsbD 1 = false ∧ (d.extractLsb' 31 3).toNat > 4 then 0x01#8
      else if d.getLsbD 1 = true ∧ ((d.extractLsb' 19 6).toNat ≥ (d.extractLsb' 2 7).toNat ∨
          (d.extractLsb' 25 6).toNat ≥ (d.extractLsb' 2 7).toNat) then 0x04#8
      else 0x00#8 := by
  simp only [checkDescriptor, apply_ite ResultCode.toByte, family_descriptorOfWord_eq_simon_iff,
    family_descriptorOfWord_eq_speck_iff]
  rfl

/-- Settles O23: SELECT responds with the code of its checks, and fails unless that code is OK. -/
theorem selectChecksTheRomWordInOrder : Obligations.SelectChecksTheRomWordInOrder := by
  intro s vidx d code hd hcode
  rw [← toByte_checkDescriptor_descriptorOfWord] at hcode
  subst hd hcode
  by_cases hc : checkDescriptor (romDescriptor s.roms vidx) = .ok
  case pos =>
    exact ⟨_, execSelect_eq_next.mpr (.inr ⟨hc, rfl⟩),
      congrArg (fun code => some (responseWord code 0)) hc.symm,
      fun hne => absurd (toByte_eq_zero.mpr hc) hne⟩
  case neg =>
    exact ⟨_, execSelect_eq_next.mpr (.inl ⟨hc, rfl⟩), rfl, fun _ => rfl⟩

/-- The default ROM holds a descriptor in slots 0 to 13, each of which passes every check, and none in slots 14
and 15 (R142). -/
theorem checkDescriptor_romsDefault : ∀ vidx : BitVec 4,
    checkDescriptor (romDescriptor romsDefault vidx) =
      if vidx.toNat ≤ 13 then .ok else .invalidVariant := by decide

/-- Settles O25: a slot with a descriptor loads its fields, and an empty slot leaves the reset values. -/
theorem defaultCatalogSelects : Obligations.DefaultCatalogSelects := by
  intro vidx
  have hcheck := checkDescriptor_romsDefault vidx
  by_cases hv : vidx.toNat ≤ 13
  case pos =>
    rw [if_pos hv] at hcheck
    refine ⟨_, execSelect_eq_next.mpr (.inr ⟨hcheck, rfl⟩), ?registers, ?constants,
      fun _ => ⟨rfl, rfl, rfl⟩, fun h => by omega⟩
    case registers | constants => revert vidx; decide
  case neg =>
    rw [if_neg hv] at hcheck
    have hne : checkDescriptor (romDescriptor State.reset.roms vidx) ≠ .ok :=
      fun h => nomatch hcheck.symm.trans h
    refine ⟨_, execSelect_eq_next.mpr (.inl ⟨hne, rfl⟩), ?registers, ?constants,
      fun h => absurd h hv, fun _ => ⟨rfl, ?response⟩⟩
    case registers | constants => revert vidx; decide
    case response => exact congrArg (fun code => some (responseWord code 0)) hcheck

end Sys2Proof.Machine

/-! PROOFS: the key schedule EXPAND leaves, and what it depends on (R161-R169). -/

namespace Sys2Proof.Machine

-- What EXPAND runs, for either family

/-- EXPAND with a passed check runs the whole schedule (R168). -/
theorem exec_expand_eq_next {len : BitVec 6} {s t : State} (hv : s.cfgValid = true)
    (hlen : len.toNat = s.cfg.m * s.cfg.wb) :
    exec (.expand len) s = .next t ↔ s.cfg.Legal ∧
      t = expandDone (runSchedule s.cfg s.keybuf ⟨s.win, s.rk⟩) (scheduleSteps s.cfg) s := by
  have hc : checkExpand len s = .ok := checkExpand_eq_ok.mpr ⟨hv, hlen⟩
  refine execExpand_eq_next.trans ⟨fun h => ?_, fun h => .inr ⟨hc, h⟩⟩
  rcases h with ⟨hne, -⟩ | ⟨-, h⟩
  · exact absurd hc hne
  · exact h

/-- The window is loaded with the key words, below m only (R161). -/
theorem wordAt_scheduleStart_win {c : Cfg} (hm : c.m ≤ 4) (keybuf : Vector Byte 32) (k : Schedule)
    (j : Nat) :
    wordAt (scheduleStart c keybuf k).win j =
      if j < c.m then unpack c keybuf j else wordAt k.win j := by
  by_cases hj : j < 4
  · exact wordAt_loadWindow c keybuf k.win hj
  · rw [if_neg (by omega), wordAt_of_ge _ (by omega), wordAt_of_ge _ (by omega)]

/-- The first round keys are the first key words, and no other round key is written with them
(R162, R166). -/
theorem wordAt_scheduleStart_rk {c : Cfg} (hc : c.Legal) (keybuf : Vector Byte 32) (k : Schedule)
    (j : Nat) :
    wordAt (scheduleStart c keybuf k).rk j =
      if j < firstKeyCount c then unpack c keybuf j else wordAt k.rk j := by
  obtain ⟨hm2, hm4, -, -⟩ := legal_ranges hc
  have hle : firstKeyCount c ≤ c.m := by unfold firstKeyCount; split <;> omega
  refine (wordAt_firstRoundKeys hm4 (scheduleStart c keybuf k).win k.rk j).trans ?_
  split
  · rw [wordAt_scheduleStart_win hm4, if_pos (by omega)]
  · rfl

/-- A schedule keeps the window slots from m up (R31, R161). -/
theorem wordAt_runSchedule_win_upper {c : Cfg} (hc : c.Legal) (keybuf : Vector Byte 32) (k : Schedule)
    {j : Nat} (hj : c.m ≤ j) : wordAt (runSchedule c keybuf k).win j = wordAt k.win j := by
  obtain ⟨hm2, hm4, -, -⟩ := legal_ranges hc
  by_cases hj4 : j < 4
  · have hsteps : wordAt (runSchedule c keybuf k).win j = wordAt (scheduleStart c keybuf k).win j := by
      cases hf : c.family with
      | speck => exact speck_upper_window hf (by omega) _ _ hj hj4
      | simon => exact simon_upper_window hf _ _ hj hj4
    rw [hsteps, wordAt_scheduleStart_win hm4, if_neg (by omega)]
  · rw [wordAt_of_ge _ (by omega), wordAt_of_ge _ (by omega)]

/-- A schedule keeps the round keys from T up (R166). -/
theorem wordAt_runSchedule_rk_upper {c : Cfg} (hc : c.Legal) (keybuf : Vector Byte 32) (k : Schedule)
    {j : Nat} (hj : c.T ≤ j) : wordAt (runSchedule c keybuf k).rk j = wordAt k.rk j := by
  obtain ⟨hsum, -, hlt⟩ := firstKeyCount_add_scheduleSteps hc
  have hsteps : wordAt (runSchedule c keybuf k).rk j = wordAt (scheduleStart c keybuf k).rk j := by
    rw [runSchedule_eq]
    cases hf : c.family with
    | speck =>
      rw [firstKeyCount_speck hf] at hsum
      rw [speck_rk hf _ hlt, if_neg (by omega)]
    | simon =>
      rw [firstKeyCount_simon hf] at hsum
      rw [← Nat.zero_add (scheduleSteps c), simon_rk_stable hf _ (.inr (by omega))]
      rfl
  rw [hsteps, wordAt_scheduleStart_rk hc, if_neg (by omega)]

-- SPECK

/-- The word `l[n]` of the Speck recurrence: it stands in WIN[1] after `n` steps (R163). -/
def speckKeyWord (c : Cfg) (k0 : Schedule) (n : Nat) : Word := wordAt (scheduleAfter c k0 n).win 1

/-- After `i` steps the window slots 1..m-1 hold the words `l[i]`, `l[i+1]`, ... (R163). -/
theorem speck_window {c : Cfg} (hf : c.family = .speck) (hm : c.m ≤ 4) (k0 : Schedule) (i : Nat)
    {j : Nat} (hj : j + 1 < c.m) :
    wordAt (scheduleAfter c k0 i).win (j + 1) = speckKeyWord c k0 (i + j) := by
  rw [speckKeyWord, speck_window_moves hf hm k0 i j (Nat.le_refl 1) (by omega), Nat.add_comm 1 j]

/-- Step `i` makes the word that enters at WIN[m-1], and the next round key from it (R163). -/
theorem speck_recurrence {c : Cfg} (hf : c.family = .speck) (hm2 : 2 ≤ c.m) (hm4 : c.m ≤ 4)
    (k0 : Schedule) {i : Nat} (hi : i < 128) :
    speckKeyWord c k0 (i + c.m - 1) =
      xorW c.w (addW c.w (rorW c.w (speckKeyWord c k0 i) c.alpha.toNat)
        (wordAt (scheduleAfter c k0 i).win 0)) (BitVec.ofNat 64 i) ∧
    wordAt (scheduleAfter c k0 (i + 1)).win 0 =
      xorW c.w (rolW c.w (wordAt (scheduleAfter c k0 i).win 0) c.beta.toNat)
        (speckKeyWord c k0 (i + c.m - 1)) := by
  have hwin : (scheduleAfter c k0 (i + 1)).win = speckStep c i (scheduleAfter c k0 i).win := by
    rw [scheduleAfter_succ, scheduleStep_speck hf]
  have hnew : speckKeyWord c k0 (i + c.m - 1) = speckX c i (scheduleAfter c k0 i).win := by
    rw [show i + c.m - 1 = i + 1 + (c.m - 2) by omega, ← speck_window hf hm4 k0 (i + 1) (by omega),
      hwin, wordAt_speckStep _ _ _ (by omega), if_neg (by omega), if_neg (by omega),
      if_pos (by omega)]
  constructor
  · rw [hnew, speckX, zextStep_eq hi, speckKeyWord]
  · rw [hwin, wordAt_speckStep _ _ _ (by omega), if_pos rfl, hnew]

/-- Round key `j` of the Speck schedule is WIN[0] after `j` steps, RK[0] included (R166). -/
theorem speck_rk_eq_window {c : Cfg} (hc : c.Legal) (hf : c.family = .speck)
    (keybuf : Vector Byte 32) (k : Schedule) {j : Nat} (hj : j < c.T) :
    wordAt (runSchedule c keybuf k).rk j =
      wordAt (scheduleAfter c (scheduleStart c keybuf k) j).win 0 := by
  obtain ⟨hm2, hm4, ht, ht'⟩ := legal_ranges hc
  rw [runSchedule_eq, scheduleSteps_speck hf, speck_rk hf _ (by omega)]
  cases j with
  | zero =>
    rw [if_neg (by omega), wordAt_scheduleStart_rk hc, firstKeyCount_speck hf, if_pos (by omega)]
    exact (wordAt_scheduleStart_win hm4 keybuf k 0).trans (if_pos (by omega)) |>.symm
  | succ j => rw [if_pos (by omega)]

/-- Settles O26: the words of the recurrence are what WIN[1] holds after each step, and the round keys are
what WIN[0] holds. -/
theorem expandGivesTheSpeckSchedule : Obligations.ExpandGivesTheSpeckSchedule := by
  intro s len hv hl hf hlen
  obtain ⟨hm2, hm4, ht, ht'⟩ := legal_ranges hl
  have hsteps := scheduleSteps_speck hf
  refine ⟨_, speckKeyWord s.cfg (scheduleStart s.cfg s.keybuf ⟨s.win, s.rk⟩),
    (exec_expand_eq_next hv hlen).mpr ⟨hl, rfl⟩, ?firstKey, ?firstWords, ?recurrence,
    fun j hj => wordAt_runSchedule_rk_upper hl _ _ hj, ?lastKey, ?lastWords,
    fun j hj => wordAt_runSchedule_win_upper hl _ _ hj, byteAt_replicate_zero 32,
    congrArg (expandDone _ · s) hsteps⟩
  case firstWords =>
    intro j hj
    rw [← Nat.zero_add j, ← speck_window hf hm4 _ 0 (by omega), Nat.zero_add]
    exact (wordAt_scheduleStart_win hm4 _ _ (j + 1)).trans (if_pos hj)
  all_goals simp only [expandDone_rk, expandDone_win]
  case firstKey =>
    rw [speck_rk_eq_window hl hf _ _ (by omega)]
    exact (wordAt_scheduleStart_win hm4 _ _ 0).trans (if_pos (by omega))
  case recurrence =>
    intro i hi
    rw [speck_rk_eq_window hl hf _ _ hi, speck_rk_eq_window hl hf _ _ (by omega : i < s.cfg.T)]
    exact speck_recurrence hf hm2 hm4 _ (by omega)
  case lastKey =>
    rw [speck_rk_eq_window hl hf _ _ (by omega), runSchedule_eq, hsteps]
  case lastWords =>
    intro j hj hjm
    obtain ⟨i, rfl⟩ : ∃ i, j = i + 1 := ⟨j - 1, by omega⟩
    rw [runSchedule_eq, hsteps, speck_window hf hm4 _ _ hjm, Nat.add_sub_cancel]

-- SIMON

/-- `FIXC` by its value: the constant masked to w bits (R165). -/
theorem fixc_eq (c : Cfg) :
    c.fixc = 0xFFFFFFFFFFFFFFFC#64 &&& BitVec.ofNat 64 (2 ^ c.w - 1) := by
  rw [Cfg.fixc, maskW, Nat.one_shiftLeft]

/-- The window after `i` steps is m round keys of the finished schedule, from RK[i] on (R166). -/
theorem simon_window_eq_rk {c : Cfg} (hc : c.Legal) (hf : c.family = .simon)
    (keybuf : Vector Byte 32) (k : Schedule) {i j : Nat} (hi : i + c.m ≤ c.T) (hj : j < c.m) :
    wordAt (scheduleAfter c (scheduleStart c keybuf k) i).win j =
      wordAt (runSchedule c keybuf k).rk (i + j) := by
  obtain ⟨hm2, hm4, ht, ht'⟩ := legal_ranges hc
  have hstart : ∀ j, j < c.m → wordAt (scheduleStart c keybuf k).win j =
      wordAt (scheduleStart c keybuf k).rk j := by
    intro j hj
    rw [wordAt_scheduleStart_win hm4, wordAt_scheduleStart_rk hc, firstKeyCount_simon hf,
      if_pos hj, if_pos hj]
  rw [simon_window hf hm4 _ hstart (by omega) hj, runSchedule_eq, scheduleSteps_simon hf,
    show c.T - c.m = i + (c.T - c.m - i) by omega, simon_rk_stable hf _ (.inl (by omega))]

/-- Step `i` makes the round key that enters at WIN[m-1] (R164, R166). -/
theorem simon_recurrence {c : Cfg} (hc : c.Legal) (hf : c.family = .simon)
    (keybuf : Vector Byte 32) (k : Schedule) {i : Nat} (hi : i + c.m < c.T) :
    wordAt (runSchedule c keybuf k).rk (i + c.m) =
      simonNewWord c i (scheduleAfter c (scheduleStart c keybuf k) i).win := by
  obtain ⟨hm2, hm4, -, -⟩ := legal_ranges hc
  rw [show i + c.m = i + 1 + (c.m - 1) by omega,
    ← simon_window_eq_rk hc hf _ _ (by omega) (by omega), scheduleAfter_succ, scheduleStep_simon hf]
  exact (wordAt_simonStep c i _ (by omega)).trans
    ((if_neg (by omega)).trans (if_pos (by omega)))

/-- Settles O27: the window before each step is the m round keys the recurrence reads. -/
theorem expandGivesTheSimonSchedule : Obligations.ExpandGivesTheSimonSchedule := by
  intro s len hv hl hf hlen
  obtain ⟨hm2, hm4, ht, ht'⟩ := legal_ranges hl
  have hsteps := scheduleSteps_simon hf
  refine ⟨_, (exec_expand_eq_next hv hlen).mpr ⟨hl, rfl⟩, ?firstKeys, ?recurrence,
    fun j hj => wordAt_runSchedule_rk_upper hl _ _ hj, ?lastWindow,
    fun j hj => wordAt_runSchedule_win_upper hl _ _ hj, byteAt_replicate_zero 32,
    congrArg (expandDone _ · s) hsteps⟩
  all_goals simp only [expandDone_rk, expandDone_win]
  case firstKeys =>
    intro j hj
    rw [← Nat.zero_add j, ← simon_window_eq_rk hl hf _ _ (by omega) hj, Nat.zero_add]
    exact (wordAt_scheduleStart_win hm4 _ _ j).trans (if_pos hj)
  case recurrence =>
    intro i hi
    refine ⟨_, rfl, ?_⟩
    rw [simon_recurrence hl hf _ _ hi, simonNewWord_eq, simonConst_eq, fixc_eq,
      simon_window_eq_rk hl hf _ _ (by omega) (by omega : s.cfg.m - 1 < s.cfg.m),
      simon_window_eq_rk hl hf _ _ (by omega) (by omega : 1 < s.cfg.m),
      simon_window_eq_rk hl hf _ _ (by omega) (by omega : 0 < s.cfg.m), Nat.add_sub_assoc (by omega)]
    rfl
  case lastWindow =>
    intro j hj
    rw [runSchedule_eq, hsteps, simon_window_eq_rk hl hf _ _ (by omega) hj, runSchedule_eq, hsteps]

-- What the round keys depend on

/-- A schedule does not read CFG_VIDX (R169). -/
theorem runSchedule_with_vidx (c : Cfg) (vidx : BitVec 4) (keybuf : Vector Byte 32) (k : Schedule) :
    runSchedule { c with vidx := vidx } keybuf k = runSchedule c keybuf k := rfl

/-- Settles O28: both runs are the schedule of one configuration, on key words that agree. -/
theorem scheduleDependsOnCfgAndKeyOnly : Obligations.ScheduleDependsOnCfgAndKeyOnly := by
  intro s s' t t' len hv hl hv' hcfg hkey hlen ht ht' j hj
  have hlen' : len.toNat = s'.cfg.m * s'.cfg.wb := by rw [hcfg]; exact hlen
  obtain ⟨-, rfl⟩ := (exec_expand_eq_next hv hlen).mp ht
  obtain ⟨-, rfl⟩ := (exec_expand_eq_next hv' hlen').mp ht'
  rw [expandDone_rk, expandDone_rk, hcfg, runSchedule_with_vidx]
  exact runSchedule_congr hl _ _ hkey hj

end Sys2Proof.Machine

/-! PROOFS: the rounds ENCRYPT and DECRYPT run, and that a round and its inverse cancel (R180-R186, R200-R206). -/

namespace Sys2Proof.Machine

/-- Settles O13: the laws of the rounds at the widths and amounts of R186. -/
theorem roundsAndInversesCancel : Obligations.RoundsAndInversesCancel := by
  intro w alpha beta x y k hw ha hb hx hy _
  have h64 : w ≤ 64 := (wordWidths_le hw).2
  have hh : HalvesAreWords w ⟨x, y⟩ := ⟨hx, hy⟩
  exact ⟨speckInv_speckRound h64 ha.le hb.le k hh, simonInv_simonRound k hh,
    speckRound_speckInv h64 ha.le hb.le k hh, simonRound_simonInv k hh⟩

-- What a block command leaves, for either family

/-- ENCRYPT and DECRYPT with passed checks complete with the halves after all T rounds (R200, R203). -/
theorem exec_cipher_of_checked {s : State} {len : BitVec 6} (d : Dir) (hv : s.cfgValid = true)
    (hl : s.cfg.Legal) (hk : s.keyValid = true) (hlen : len.toNat = 2 * s.cfg.wb) :
    exec (if d = .encrypt then .encrypt len else .decrypt len) s =
      .next (cipherDone d (halvesAfter s d s.cfg.T) s) := by
  have hrun : runCipher d len s = .next (cipherDone d (halvesAfter s d s.cfg.T) s) :=
    runCipher_eq_next.mpr
      (.inr ⟨checkCipher_eq_ok.mpr ⟨hv, hlen, hk⟩, hl, by rw [halvesAfter_all]⟩)
  cases d with
  | encrypt => exact hrun
  | decrypt => exact hrun

/-- The bytes of OUTBUF after a block command that ran (R205). -/
theorem byteAt_cipherDone_outbuf {s : State} (hw : s.cfg.w ∈ wordWidths) (d : Dir) (h : Halves)
    {b : Nat} (hb : b < 16) :
    byteAt (cipherDone d h s).outbuf b =
      if b < s.cfg.wb then byteOf h.y b
      else if b < 2 * s.cfg.wb then byteOf h.x (b - s.cfg.wb) else 0 := by
  rw [cipherDone_outbuf, byteAt_packHalves hw h _ hb]

/-- A block command that ran changes X, Y, DIR, RC, OUTBUF, the response and SEQ, and nothing else (R206). -/
theorem cipherDone_frame (d : Dir) (h : Halves) (s : State) :
    cipherDone d h s = { s with
      x := h.x, y := h.y, dir := d, rc := BitVec.ofNat 7 s.cfg.T,
      outbuf := (cipherDone d h s).outbuf, rspPending := some 0x0000#16, seq := .idle } := rfl

-- One round more, in each direction

/-- Round `j` of ENCRYPT is the family's round with RK[j] (R202). -/
theorem halvesAfter_encrypt_succ (s : State) (j : Nat) :
    halvesAfter s .encrypt (j + 1) =
      roundForward s.cfg (wordAt s.rk j) (halvesAfter s .encrypt j) := rfl

/-- Round `j` of DECRYPT is the family's inverse round with RK[T-1-j] (R204). -/
theorem halvesAfter_decrypt_succ (s : State) (j : Nat) :
    halvesAfter s .decrypt (j + 1) =
      roundInverse s.cfg (wordAt s.rk (s.cfg.T - 1 - j)) (halvesAfter s .decrypt j) := rfl

/-- Settles O29: `xs` and `ys` are the halves after each round, and each round is Speck's (R180, R181). -/
theorem speckBlockCommandsRunTheRounds : Obligations.SpeckBlockCommandsRunTheRounds := by
  intro s len dir hv hl hf hk hlen
  refine ⟨cipherDone dir (halvesAfter s dir s.cfg.T) s, fun n => (halvesAfter s dir n).x,
    fun n => (halvesAfter s dir n).y, exec_cipher_of_checked dir hv hl hk hlen, rfl, rfl,
    ?encrypt, ?decrypt, fun b hb => byteAt_cipherDone_outbuf hl.1 dir _ hb, cipherDone_frame dir _ s⟩
  case encrypt =>
    rintro rfl j -
    simp only [halvesAfter_encrypt_succ, roundForward_speck hf, speckRound, and_self]
  case decrypt =>
    rintro rfl j -
    simp only [halvesAfter_decrypt_succ, roundInverse_speck hf, speckInv, and_self]

/-- Settles O30: `xs` and `ys` are the halves after each round, and each round is Simon's (R182-R184). -/
theorem simonBlockCommandsRunTheRounds : Obligations.SimonBlockCommandsRunTheRounds := by
  intro s len dir hv hl hf hk hlen
  refine ⟨cipherDone dir (halvesAfter s dir s.cfg.T) s, fun n => (halvesAfter s dir n).x,
    fun n => (halvesAfter s dir n).y, exec_cipher_of_checked dir hv hl hk hlen, rfl, rfl,
    ?encrypt, ?decrypt, fun b hb => byteAt_cipherDone_outbuf hl.1 dir _ hb, cipherDone_frame dir _ s⟩
  case encrypt =>
    rintro rfl j -
    simp only [halvesAfter_encrypt_succ, roundForward_simon hf, simonRound, and_self]
  case decrypt =>
    rintro rfl j -
    simp only [halvesAfter_decrypt_succ, roundInverse_simon hf, simonInv, simonF, and_self]

end Sys2Proof.Machine

/-! PROOFS: what the result of a block command depends on, and that the two commands undo each other (R208, R209). -/

namespace Sys2Proof.Machine

/-- ENCRYPT and DECRYPT with passed checks run all T rounds on the loaded block (R200-R205). -/
theorem exec_cipherCommand_eq_next {d : Dir} {len : BitVec 6} {s t : State} (hv : s.cfgValid = true)
    (hk : s.keyValid = true) (hlen : len.toNat = 2 * s.cfg.wb) :
    exec (cipherCommand d len) s = .next t ↔ s.cfg.Legal ∧
      t = cipherDone d (runRounds s.cfg s.rk d (loadHalves s.cfg s.inbuf)) s := by
  have hc : checkCipher len s = .ok := checkCipher_eq_ok.mpr ⟨hv, hlen, hk⟩
  rw [exec_cipherCommand, runCipher_eq_next]
  refine ⟨fun h => ?_, fun h => .inr ⟨hc, h⟩⟩
  rcases h with ⟨hne, -⟩ | ⟨-, h⟩
  · exact absurd hc hne
  · exact h

/-- Settles O31: the loaded halves and the rounds agree, and the packed result overwrites all of OUTBUF. -/
theorem cipherDependsOnCfgKeysAndBlockOnly : Obligations.CipherDependsOnCfgKeysAndBlockOnly := by
  intro s s' t t' len i hi hv hl hk hlen hv' hk' hcfg hkeys hblock ht ht'
  obtain ⟨d, rfl⟩ : ∃ d, i = cipherCommand d len :=
    hi.elim (fun h => ⟨.encrypt, h⟩) (fun h => ⟨.decrypt, h⟩)
  have hlen' : len.toNat = 2 * s'.cfg.wb := by rw [hcfg]; exact hlen
  obtain ⟨-, rfl⟩ := (exec_cipherCommand_eq_next hv hk hlen).mp ht
  obtain ⟨-, rfl⟩ := (exec_cipherCommand_eq_next hv' hk' hlen').mp ht'
  refine ⟨fun b _ => ?outbuf, cipherDone_rk _ _ s⟩
  case outbuf =>
    rw [cipherDone_outbuf, cipherDone_outbuf, hcfg, loadHalves_congr hblock,
      runRounds_congr d _ hkeys]
    exact congrArg (byteAt · b) (packHalves_congr hl.1 _ _ _)

/-- When the rounds of direction `d'` undo those of `d`, the command of `d'` on the result of the command of
`d` gives the block back: loading undoes packing before the rounds, and packing undoes loading after them
(R208). -/
theorem cipher_round_trip {d d' : Dir} {len : BitVec 6} {s t u v : State}
    (hundo : ∀ h, HalvesAreWords s.cfg.w h →
      runRounds s.cfg s.rk d' (runRounds s.cfg s.rk d h) = h)
    (hv : s.cfgValid = true) (hk : s.keyValid = true) (hlen : len.toNat = 2 * s.cfg.wb)
    (ht : exec (cipherCommand d len) s = .next t)
    (huv : u.cfgValid = true) (huk : u.keyValid = true) (hcfg : u.cfg = s.cfg) (hrk : u.rk = s.rk)
    (hcopy : ∀ b, b < 2 * s.cfg.wb → byteAt u.inbuf b = byteAt t.outbuf b)
    (hx : exec (cipherCommand d' len) u = .next v) {b : Nat} (hb : b < 2 * s.cfg.wb) :
    byteAt v.outbuf b = byteAt s.inbuf b := by
  have hlen' : len.toNat = 2 * u.cfg.wb := by rw [hcfg]; exact hlen
  obtain ⟨hl, rfl⟩ := (exec_cipherCommand_eq_next hv hk hlen).mp ht
  obtain ⟨-, rfl⟩ := (exec_cipherCommand_eq_next huv huk hlen').mp hx
  have hwords := loadHalves_words hl.1 s.inbuf
  have hload : loadHalves s.cfg u.inbuf = runRounds s.cfg s.rk d (loadHalves s.cfg s.inbuf) :=
    loadHalves_packHalves hl.1 (runRounds_words (legal_amounts hl).2.1 s.rk d hwords) hcopy
  rw [cipherDone_outbuf, hcfg, hrk, hload, hundo _ hwords, packHalves_loadHalves hl.1 _ _ hb]

/-- Settles O32: the rounds of either direction undo those of the other. -/
theorem decryptUndoesEncrypt : Obligations.DecryptUndoesEncrypt := by
  intro s t u v len first second horder hv hl hk hlen ht huv huk hcfg hrk hcopy hx b hb
  rcases horder with ⟨rfl, rfl⟩ | ⟨rfl, rfl⟩
  · exact cipher_round_trip (d := .encrypt) (d' := .decrypt)
      (fun _ => runRounds_decrypt_encrypt hl s.rk) hv hk hlen ht huv huk hcfg hrk hcopy hx hb
  · exact cipher_round_trip (d := .decrypt) (d' := .encrypt)
      (fun _ => runRounds_encrypt_decrypt hl s.rk) hv hk hlen ht huv huk hcfg hrk hcopy hx hb

end Sys2Proof.Machine

/-! PROOFS: what NOP does in every state (R220). -/

namespace Sys2Proof.Machine

/-- Settles O19: NOP is the completing edge of the state it finds, with nothing written before it. -/
theorem nopOnlyResponds : Obligations.NopOnlyResponds := fun _ => rfl

end Sys2Proof.Machine

/-! PROOFS: what a failing command, an illegal word and an idle block leave alone, which code a command answers,
and that a good block never stops (R230-R238, R251, R263, R268). -/

namespace Sys2Proof.Machine

-- What a failure leaves

/-- A failure answers its code with data 0x00, and changes ERR and ERRCODE only (R231, R233). -/
theorem failed_frame {code : ResultCode} {s : State} {r : BitVec 16}
    (hr : (failed code s).rspPending = some r) :
    r.extractLsb' 0 8 = 0 ∧ failed code s = { s with
      err := true, errcode := r.extractLsb' 8 8, rspPending := some r, seq := .idle } := by
  obtain rfl : responseWord code 0 = r := Option.some.inj hr
  rw [responseWord_data, responseWord_code]
  exact ⟨rfl, failed_eq code s⟩

/-- A failure in an idle block leaves SEQ as it was. -/
theorem failed_of_idle (code : ResultCode) {s : State} (hs : s.seq = .idle) :
    failed code s = { s with
      err := true, errcode := code.toByte, rspPending := some (responseWord code 0) } := by
  rw [failed_eq, ← hs]

/-- Settles O15: an illegal word is one failure, at the step and at the accepting edge alike. -/
theorem illegalWordsFailInOneCycle : Obligations.IllegalWordsFailInOneCycle := by
  intro s c why hs hd
  refine ⟨fun rest hp => ?step, ?edge⟩
  case step =>
    rw [step_runs_word hs hp, runWord_illegal _ hd, execIllegal, raise_eq,
      failed_of_idle _ (s := { s with port := rest }) hs]
    rfl
  case edge =>
    rw [clockEdge_illegal hs hd, execIllegal, raise_eq, failed_of_idle _ hs]
    rfl

/-- A failing command has its whole effect at the accepting edge (R231). -/
theorem acceptEdge_of_failing {i : Instr} {s : State} (hc : checkOf i s ≠ .ok) :
    acceptEdge i s = exec i s := by
  cases i with
  | expand len => exact acceptEdge_expand_of_failing hc
  | encrypt len => exact acceptEdge_cipher_of_failing (d := .encrypt) hc
  | decrypt len => exact acceptEdge_cipher_of_failing (d := .decrypt) hc
  | _ => rfl

/-- A command that answers a non-zero code has failed its check. -/
theorem exec_failed {i : Instr} {s t : State} {r : BitVec 16} (h : exec i s = .next t)
    (hr : t.rspPending = some r) (hcode : r.extractLsb' 8 8 ≠ 0) :
    checkOf i s ≠ .ok ∧ t = failed (checkOf i s) s := by
  rcases exec_cases h with hfail | ⟨-, data, u, rfl, -⟩
  · exact hfail
  · obtain rfl : responseWord .ok data = r := Option.some.inj hr
    exact absurd (responseWord_code .ok data) hcode

/-- A command that answers a non-zero code completes at its accepting edge and changes ERR and ERRCODE only
(R231). -/
theorem exec_failed_frame {i : Instr} {s t : State} {r : BitVec 16} (h : exec i s = .next t)
    (hr : t.rspPending = some r) (hcode : r.extractLsb' 8 8 ≠ 0) :
    r.extractLsb' 0 8 = 0 ∧ acceptEdge i s = .next t ∧ t = { s with
      err := true, errcode := r.extractLsb' 8 8, rspPending := some r, seq := .idle } := by
  obtain ⟨hc, rfl⟩ := exec_failed h hr hcode
  obtain ⟨hdata, hframe⟩ := failed_frame hr
  exact ⟨hdata, (acceptEdge_of_failing hc).trans h, hframe⟩

/-- Settles O34: a command that answers a non-zero code, and an illegal word, is a failure at the accepting
edge, and SEQ is already IDLE where a word is accepted. -/
theorem failingCommandsHaveNoOtherEffect : Obligations.FailingCommandsHaveNoOtherEffect := by
  refine ⟨fun i s t r => exec_failed_frame, fun c s t r hs h hr hcode => ?_⟩
  cases hd : decode c with
  | command i =>
    rw [runWord_command s hd] at h
    obtain ⟨hdata, hedge, hframe⟩ := exec_failed_frame h hr hcode
    exact ⟨hdata, (clockEdge_accepts hs hd).trans hedge, hframe.trans (by rw [← hs])⟩
  | illegal why =>
    rw [runWord_illegal s hd] at h
    obtain rfl := raise_eq_next.mp h
    obtain ⟨hdata, hframe⟩ := failed_frame hr
    exact ⟨hdata, (clockEdge_illegal hs hd).trans h, hframe.trans (by rw [← hs])⟩

-- The code a command answers

/-- Every command but READ answers the code of its check, with data 0x00. -/
theorem exec_responds {i : Instr} {s : State} (hsel : s.cfgValid = true → s.cfg.Legal)
    (hread : ∀ addr, i ≠ .read addr) :
    ∃ t, exec i s = .next t ∧ Responds t (checkOf i s) 0 := by
  obtain ⟨t, ht⟩ := exec_completes i hsel
  refine ⟨t, ht, ?_⟩
  rcases exec_cases ht with ⟨-, rfl⟩ | ⟨hc, data, u, rfl, he⟩
  · rfl
  · rw [hc, he.data_eq_zero hread]
    rfl

/-- Settles O33: the three commands answer the code of their check, which tests in the order of R237. -/
theorem checkedCommandsReportTheFirstError : Obligations.CheckedCommandsReportTheFirstError := by
  intro s len hsel
  refine ⟨exec_responds (i := .expand len) hsel nofun, fun i hi => ?_⟩
  rcases hi with rfl | rfl
  · exact exec_responds (i := .encrypt len) hsel nofun
  · exact exec_responds (i := .decrypt len) hsel nofun

-- A block after reset

/-- The legality premise says nothing of a block with no variant selected. -/
theorem legal_of_unselected {s : State} (hv : s.cfgValid = false) : s.cfgValid = true → s.cfg.Legal :=
  fun h => Bool.noConfusion (hv.symm.trans h)

theorem checkExpand_of_unselected (len : BitVec 6) {s : State} (hv : s.cfgValid = false) :
    checkExpand len s = .invalidVariant := if_pos hv

theorem checkCipher_of_unselected (len : BitVec 6) {s : State} (hv : s.cfgValid = false) :
    checkCipher len s = .invalidVariant := if_pos hv

/-- Out of reset the host finds what it finds in `State.reset`, but for the response on `rsp` (R50). -/
theorem AfterReset.sameToHost {s : State} (h : AfterReset s) :
    SameToHost s { State.reset with rspPending := s.rspPending } := by
  obtain ⟨hv, hcfg, hk, herr, hcode, -, -, hout, -⟩ := h
  have houtbuf : s.outbuf = State.reset.outbuf :=
    buffer_ext fun i hi => (hout i hi).trans (byteAt_replicate_zero 16 i).symm
  refine ⟨houtbuf, hv, hk, herr, hcode, ?_⟩
  rw [hcfg]
  exact ⟨rfl, rfl, rfl, rfl, rfl, rfl, rfl, rfl⟩

/-- The read window of `State.reset`, address by address (R65). -/
theorem readWindow_reset : ∀ addr : BitVec 8, readWindow State.reset addr =
    if addr = 0x1A#8 then 0x53#8 else if addr = 0x1B#8 then 0x01#8 else 0x00#8 := by
  decide

/-- What READ answers out of reset: the identification bytes, and 0x00 elsewhere (R263). -/
theorem AfterReset.readWindow {s : State} (h : AfterReset s) (addr : BitVec 8) :
    readWindow s addr =
      if addr = 0x1A#8 then 0x53#8 else if addr = 0x1B#8 then 0x01#8 else 0x00#8 :=
  (readWindow_congr h.sameToHost addr).trans (readWindow_reset addr)

/-- Settles O41: the checks of the three commands begin with CFG_VALID; the other commands but SELECT have no
check, and READ answers the window of a reset block. -/
theorem resetBlockAnswers : Obligations.ResetBlockAnswers := by
  refine ⟨fun s len i hv hi => ?unselected,
    fun s h => ⟨fun i hi => ?simple, fun vidx hc => ?select, fun addr => ?read⟩⟩
  case unselected =>
    have hsel := legal_of_unselected hv
    rcases hi with rfl | rfl | rfl
    · exact checkExpand_of_unselected len hv ▸ exec_responds (i := .expand len) hsel nofun
    · exact checkCipher_of_unselected len hv ▸ exec_responds (i := .encrypt len) hsel nofun
    · exact checkCipher_of_unselected len hv ▸ exec_responds (i := .decrypt len) hsel nofun
  case simple =>
    rcases hi with rfl | rfl | rfl | ⟨idx, b, rfl⟩ | ⟨idx, b, rfl⟩ <;> exact ⟨_, rfl, rfl⟩
  case select => exact ⟨_, execSelect_eq_next.mpr (.inr ⟨hc, rfl⟩), rfl⟩
  case read => exact ⟨_, rfl, h.readWindow addr ▸ rfl⟩

-- An idle block

/-- Settles O16: with nothing to accept, an idle block's step and edge are the sequencer's idle edge. -/
theorem idleBlockHoldsItsState : Obligations.IdleBlockHoldsItsState := by
  intro s hs
  refine ⟨fun hp => ?_, fun rest hp => ?_, fun c => seqEdge_idle hs⟩
  · simp only [step, stepPort, hp, seqEdge_idle hs]
  · simp only [step, stepPort, hp]
    exact seqEdge_idle (s := { s with port := rest }) hs

-- A good block never stops

/-- The sequencer moves only under a selected variant, whose CFG registers are legal (R234). -/
theorem seqEdge_completes {s : State} (h : Inv s) : ∃ t, seqEdge s = .next t := by
  have hlegal : s.seq ≠ .idle → s.cfg.Legal := fun hb => h.selected (h.busyVariant hb)
  cases hs : s.seq with
  | idle => exact ⟨_, seqEdge_idle hs⟩
  | ksStep => exact ⟨_, seqEdge_ksStep hs (hlegal (by simp [hs]))⟩
  | rfRound => exact ⟨_, seqEdge_rfRound hs (hlegal (by simp [hs]))⟩
  | rfPack => exact ⟨_, seqEdge_rfPack hs (hlegal (by simp [hs]))⟩

theorem acceptEdge_completes (i : Instr) {s : State} (hsel : s.cfgValid = true → s.cfg.Legal) :
    ∃ t, acceptEdge i s = .next t := by
  cases command_has_course i hsel with
  | oneCycle hlat hedge => exact hedge ▸ exec_completes i hsel
  | sequenced chain N hlat hstart hbusy hstep hdone => exact ⟨_, hstart⟩

theorem runWord_completes (c : CmdWord) {s : State} (hsel : s.cfgValid = true → s.cfg.Legal) :
    ∃ t, runWord c s = .next t := by
  cases hd : decode c with
  | command i => rw [runWord_command s hd]; exact exec_completes i hsel
  | illegal why => rw [runWord_illegal s hd]; exact ⟨_, raise_eq _ s⟩

theorem step_completes {s : State} (h : Inv s) : ∃ t, step s = .next t := by
  unfold step stepPort
  split
  · exact ⟨_, rfl⟩
  · split
    · exact runWord_completes _ h.selected
    · exact seqEdge_completes h
  · next rest _ => exact seqEdge_completes (h.with_port rest)
  · exact seqEdge_completes h

theorem clockEdge_completes (p : Pins) {s : State} (h : Inv s) : ∃ t, clockEdge p s = .next t := by
  unfold clockEdge
  split
  · exact ⟨_, rfl⟩
  · split
    · split
      · exact acceptEdge_completes _ h.selected
      · exact ⟨_, raise_eq _ s⟩
    · exact seqEdge_completes h

/-- Settles O47: an accepted word, a reset and an edge of the sequencer all give a next state, for the CFG
registers of a good state are legal wherever they are asked for. -/
theorem stepNeverStops : Obligations.StepNeverStops :=
  fun _ p h => ⟨step_completes h, clockEdge_completes p h⟩

end Sys2Proof.Machine
